-- ==== Sys2Proof/Word.lean ====
section
/-! DEFINITION. The bit vectors of the machine (00_scope.md R7, R62): everything is unsigned. -/

namespace Sys2Proof

/-- An 8-bit value: a general register, a memory byte, a timer, the immediate `NN`. -/
abbrev Byte := BitVec 8

/-- A 16-bit value: `I`, `PC`, a stack slot, an opcode. -/
abbrev Word := BitVec 16

/-- A 12-bit address field `NNN` of an opcode. -/
abbrev Addr12 := BitVec 12

/-- A 4-bit value: a register index `X` or `Y`, the count `N`, a key code, a font digit. -/
abbrev Nibble := BitVec 4

end Sys2Proof
end

