-- ==== Sys2Proof/Syntax.lean ====
section
/-! DEFINITION. The 35 instructions (30_encoding.md R64), one constructor per row of spec/opcode_table.json, with the
operand kinds of R62. A register index is a 4-bit value, so none can be out of range (R11). -/

namespace Sys2Proof

inductive Instr where
  /-- 00E0, CLS (R150). -/
  | cls
  /-- 00EE, RET (R101). -/
  | ret
  /-- 0NNN, SYS addr (R100). -/
  | sys (nnn : Addr12)
  /-- 1NNN, JP addr (R102). -/
  | jp (nnn : Addr12)
  /-- 2NNN, CALL addr (R103). -/
  | call (nnn : Addr12)
  /-- 3XNN, SE Vx, byte (R105). -/
  | seImm (x : Nibble) (nn : Byte)
  /-- 4XNN, SNE Vx, byte (R106). -/
  | sneImm (x : Nibble) (nn : Byte)
  /-- 5XY0, SE Vx, Vy (R107). -/
  | seReg (x y : Nibble)
  /-- 6XNN, LD Vx, byte (R122). -/
  | ldImm (x : Nibble) (nn : Byte)
  /-- 7XNN, ADD Vx, byte (R123). -/
  | addImm (x : Nibble) (nn : Byte)
  /-- 8XY0, LD Vx, Vy (R124). -/
  | ldReg (x y : Nibble)
  /-- 8XY1, OR Vx, Vy (R125). -/
  | orReg (x y : Nibble)
  /-- 8XY2, AND Vx, Vy (R126). -/
  | andReg (x y : Nibble)
  /-- 8XY3, XOR Vx, Vy (R127). -/
  | xorReg (x y : Nibble)
  /-- 8XY4, ADD Vx, Vy (R128). -/
  | addReg (x y : Nibble)
  /-- 8XY5, SUB Vx, Vy (R129). -/
  | subReg (x y : Nibble)
  /-- 8XY6, SHR Vx, Vy (R130). -/
  | shr (x y : Nibble)
  /-- 8XY7, SUBN Vx, Vy (R131). -/
  | subn (x y : Nibble)
  /-- 8XYE, SHL Vx, Vy (R132). -/
  | shl (x y : Nibble)
  /-- 9XY0, SNE Vx, Vy (R108). -/
  | sneReg (x y : Nibble)
  /-- ANNN, LD I, addr (R140). -/
  | ldI (nnn : Addr12)
  /-- BNNN, JP V0, addr (R104). -/
  | jpV0 (nnn : Addr12)
  /-- CXNN, RND Vx, byte (R133). -/
  | rnd (x : Nibble) (nn : Byte)
  /-- DXYN, DRW Vx, Vy, n (R151). -/
  | drw (x y n : Nibble)
  /-- EX9E, SKP Vx (R160). -/
  | skp (x : Nibble)
  /-- EXA1, SKNP Vx (R161). -/
  | sknp (x : Nibble)
  /-- FX07, LD Vx, DT (R164). -/
  | ldVxDt (x : Nibble)
  /-- FX0A, LD Vx, K (R162). -/
  | ldVxK (x : Nibble)
  /-- FX15, LD DT, Vx (R165). -/
  | ldDtVx (x : Nibble)
  /-- FX18, LD ST, Vx (R166). -/
  | ldStVx (x : Nibble)
  /-- FX1E, ADD I, Vx (R141). -/
  | addI (x : Nibble)
  /-- FX29, LD F, Vx (R142). -/
  | ldF (x : Nibble)
  /-- FX33, LD B, Vx (R143). -/
  | ldB (x : Nibble)
  /-- FX55, LD [I], Vx (R144). -/
  | stRegs (x : Nibble)
  /-- FX65, LD Vx, [I] (R145). -/
  | ldRegs (x : Nibble)
  deriving DecidableEq, Repr

end Sys2Proof
end

