-- ==== Sys2Proof/WellFormed.lean ====
section
/-! DEFINITION. Which terms of `Instr` some opcode stands for. The operand types leave one check: the SYS addresses
whose words are CLS and RET (30_encoding.md R65). -/

namespace Sys2Proof

/-- 0x00E0 is CLS, never SYS 0x0E0 (R65). -/
def Instr.notClsWord : Instr → Bool
  | .sys nnn => nnn != 0x0E0#12
  | _ => true

/-- 0x00EE is RET, never SYS 0x0EE (R65). -/
def Instr.notRetWord : Instr → Bool
  | .sys nnn => nnn != 0x0EE#12
  | _ => true

/-- The instruction is the decoding of some opcode (R65, R66). -/
def Instr.wf (i : Instr) : Bool := i.notClsWord && i.notRetWord

end Sys2Proof
end

