-- ==== Sys2Proof/Decode.lean ====
section
/-! DEFINITION. Decoding an opcode (30_encoding.md R60 to R68), and encoding, each written from the spec's own table. -/

namespace Sys2Proof

/-! ## Fields of an opcode (R61, R7) -/

/-- `op[15:12]`, the family. -/
def opFamily (op : Word) : Nibble := op.extractLsb' 12 4
/-- `X = op[11:8]`. -/
def opX (op : Word) : Nibble := op.extractLsb' 8 4
/-- `Y = op[7:4]`. -/
def opY (op : Word) : Nibble := op.extractLsb' 4 4
/-- `N = op[3:0]`. -/
def opN (op : Word) : Nibble := op.extractLsb' 0 4
/-- `NN = op[7:0]`. -/
def opNN (op : Word) : Byte := op.extractLsb' 0 8
/-- `NNN = op[11:0]`. -/
def opNNN (op : Word) : Addr12 := op.extractLsb' 0 12

/-! ## Decode (R63, R66) -/

/-- Family 0: the whole low 12 bits select; 00E0 and 00EE before SYS (R65). -/
def decode0 (op : Word) : Option Instr :=
  if op = 0x00E0#16 then some .cls
  else if op = 0x00EE#16 then some .ret
  else some (.sys (opNNN op))

/-- Family 8: the low nibble selects. -/
def decode8 (op : Word) : Option Instr :=
  match (opN op).toNat with
  | 0x0 => some (.ldReg (opX op) (opY op))
  | 0x1 => some (.orReg (opX op) (opY op))
  | 0x2 => some (.andReg (opX op) (opY op))
  | 0x3 => some (.xorReg (opX op) (opY op))
  | 0x4 => some (.addReg (opX op) (opY op))
  | 0x5 => some (.subReg (opX op) (opY op))
  | 0x6 => some (.shr (opX op) (opY op))
  | 0x7 => some (.subn (opX op) (opY op))
  | 0xE => some (.shl (opX op) (opY op))
  | _ => none

/-- Family E: the low byte selects. -/
def decodeE (op : Word) : Option Instr :=
  if opNN op = 0x9E#8 then some (.skp (opX op))
  else if opNN op = 0xA1#8 then some (.sknp (opX op))
  else none

/-- Family F: the low byte selects. -/
def decodeF (op : Word) : Option Instr :=
  if opNN op = 0x07#8 then some (.ldVxDt (opX op))
  else if opNN op = 0x0A#8 then some (.ldVxK (opX op))
  else if opNN op = 0x15#8 then some (.ldDtVx (opX op))
  else if opNN op = 0x18#8 then some (.ldStVx (opX op))
  else if opNN op = 0x1E#8 then some (.addI (opX op))
  else if opNN op = 0x29#8 then some (.ldF (opX op))
  else if opNN op = 0x33#8 then some (.ldB (opX op))
  else if opNN op = 0x55#8 then some (.stRegs (opX op))
  else if opNN op = 0x65#8 then some (.ldRegs (opX op))
  else none

/-- `Decode(op)` of R66. `none` is the variant `Unknown(op)`: exactly the space of R67. -/
def decodeWord (op : Word) : Option Instr :=
  match (opFamily op).toNat with
  | 0x0 => decode0 op
  | 0x1 => some (.jp (opNNN op))
  | 0x2 => some (.call (opNNN op))
  | 0x3 => some (.seImm (opX op) (opNN op))
  | 0x4 => some (.sneImm (opX op) (opNN op))
  | 0x5 => if opN op = 0#4 then some (.seReg (opX op) (opY op)) else none
  | 0x6 => some (.ldImm (opX op) (opNN op))
  | 0x7 => some (.addImm (opX op) (opNN op))
  | 0x8 => decode8 op
  | 0x9 => if opN op = 0#4 then some (.sneReg (opX op) (opY op)) else none
  | 0xA => some (.ldI (opNNN op))
  | 0xB => some (.jpV0 (opNNN op))
  | 0xC => some (.rnd (opX op) (opNN op))
  | 0xD => some (.drw (opX op) (opY op) (opN op))
  | 0xE => decodeE op
  | _ => decodeF op

/-! ## Decode on bytes -/

/-- Why bytes are no instruction. -/
inductive DecodeError where
  /-- The two bytes are an opcode of the unknown space (R67). -/
  | unknownOpcode (op : Word)
  /-- Fewer than two bytes are left; every instruction has two (R60). -/
  | truncated
  deriving DecidableEq, Repr

/-- The opcode whose bytes are these, the byte at the lower address first: big-endian (R45). -/
def wordOfBytes (hi lo : Byte) : Word := hi ++ lo

/-- Total on any bytes: the first instruction and the bytes after it, or the reason there is none (R60, R66). -/
def decode : List Byte → Except DecodeError (Instr × List Byte)
  | hi :: lo :: rest =>
    match decodeWord (wordOfBytes hi lo) with
    | some i => .ok (i, rest)
    | none => .error (.unknownOpcode (wordOfBytes hi lo))
  | _ => .error .truncated

/-- The two bytes of an instruction whose bits are `w` as spec/opcode_table.json numbers them (bit 0 the least
significant bit of the 16-bit opcode; bits from `nbits` up are 0), in the order the hardware stores them (R45). -/
def tableWordBytes (nbits w : Nat) : List Byte :=
  let op : Word := BitVec.ofNat 16 (w % 2 ^ nbits)
  [op.extractLsb' 8 8, op.extractLsb' 0 8]

/-- The instruction the decoder reads from a table row's word. -/
def decodeTableWord (nbits w : Nat) : Option Instr :=
  match decode (tableWordBytes nbits w) with
  | .ok (i, _) => some i
  | .error _ => none

/-! ## Encode (the formats of R61 and the rows of R64) -/

/-- Format `NNN`. -/
def encNNN (major : Nibble) (nnn : Addr12) : Word := major ++ nnn
/-- Format `XNN`. -/
def encXNN (major x : Nibble) (nn : Byte) : Word := major ++ (x ++ nn)
/-- Formats `XY` and `XYN`: the last nibble is the minor selector or the count. -/
def encXYN (major x y n : Nibble) : Word := major ++ (x ++ (y ++ n))

/-- The opcode of an instruction: its row of R64 with the operands in place. -/
def encode : Instr → Word
  | .cls => 0x00E0#16
  | .ret => 0x00EE#16
  | .sys nnn => encNNN 0x0 nnn
  | .jp nnn => encNNN 0x1 nnn
  | .call nnn => encNNN 0x2 nnn
  | .seImm x nn => encXNN 0x3 x nn
  | .sneImm x nn => encXNN 0x4 x nn
  | .seReg x y => encXYN 0x5 x y 0x0
  | .ldImm x nn => encXNN 0x6 x nn
  | .addImm x nn => encXNN 0x7 x nn
  | .ldReg x y => encXYN 0x8 x y 0x0
  | .orReg x y => encXYN 0x8 x y 0x1
  | .andReg x y => encXYN 0x8 x y 0x2
  | .xorReg x y => encXYN 0x8 x y 0x3
  | .addReg x y => encXYN 0x8 x y 0x4
  | .subReg x y => encXYN 0x8 x y 0x5
  | .shr x y => encXYN 0x8 x y 0x6
  | .subn x y => encXYN 0x8 x y 0x7
  | .shl x y => encXYN 0x8 x y 0xE
  | .sneReg x y => encXYN 0x9 x y 0x0
  | .ldI nnn => encNNN 0xA nnn
  | .jpV0 nnn => encNNN 0xB nnn
  | .rnd x nn => encXNN 0xC x nn
  | .drw x y n => encXYN 0xD x y n
  | .skp x => encXNN 0xE x 0x9E
  | .sknp x => encXNN 0xE x 0xA1
  | .ldVxDt x => encXNN 0xF x 0x07
  | .ldVxK x => encXNN 0xF x 0x0A
  | .ldDtVx x => encXNN 0xF x 0x15
  | .ldStVx x => encXNN 0xF x 0x18
  | .addI x => encXNN 0xF x 0x1E
  | .ldF x => encXNN 0xF x 0x29
  | .ldB x => encXNN 0xF x 0x33
  | .stRegs x => encXNN 0xF x 0x55
  | .ldRegs x => encXNN 0xF x 0x65

/-- The bytes of an instruction, in the order they are stored (R45). -/
def encodeBytes (i : Instr) : List Byte :=
  [(encode i).extractLsb' 8 8, (encode i).extractLsb' 0 8]

/-! ## The opcode map as data (R64) -/

/-- One row of R64: an opcode `op` is the instruction when `op &&& mask = bits`, with the precedence of R65. -/
structure OpcodeRow where
  mask : Word
  bits : Word
  deriving DecidableEq, Repr

/-- Whether an opcode has the pattern of a row. -/
def OpcodeRow.matches (r : OpcodeRow) (op : Word) : Bool := op &&& r.mask == r.bits

/-- The mask and match columns of R64, by instruction. -/
def Instr.row : Instr → OpcodeRow
  | .sys _ => ⟨0xF000, 0x0000⟩
  | .cls => ⟨0xFFFF, 0x00E0⟩
  | .ret => ⟨0xFFFF, 0x00EE⟩
  | .jp _ => ⟨0xF000, 0x1000⟩
  | .call _ => ⟨0xF000, 0x2000⟩
  | .seImm _ _ => ⟨0xF000, 0x3000⟩
  | .sneImm _ _ => ⟨0xF000, 0x4000⟩
  | .seReg _ _ => ⟨0xF00F, 0x5000⟩
  | .ldImm _ _ => ⟨0xF000, 0x6000⟩
  | .addImm _ _ => ⟨0xF000, 0x7000⟩
  | .ldReg _ _ => ⟨0xF00F, 0x8000⟩
  | .orReg _ _ => ⟨0xF00F, 0x8001⟩
  | .andReg _ _ => ⟨0xF00F, 0x8002⟩
  | .xorReg _ _ => ⟨0xF00F, 0x8003⟩
  | .addReg _ _ => ⟨0xF00F, 0x8004⟩
  | .subReg _ _ => ⟨0xF00F, 0x8005⟩
  | .shr _ _ => ⟨0xF00F, 0x8006⟩
  | .subn _ _ => ⟨0xF00F, 0x8007⟩
  | .shl _ _ => ⟨0xF00F, 0x800E⟩
  | .sneReg _ _ => ⟨0xF00F, 0x9000⟩
  | .ldI _ => ⟨0xF000, 0xA000⟩
  | .jpV0 _ => ⟨0xF000, 0xB000⟩
  | .rnd _ _ => ⟨0xF000, 0xC000⟩
  | .drw _ _ _ => ⟨0xF000, 0xD000⟩
  | .skp _ => ⟨0xF0FF, 0xE09E⟩
  | .sknp _ => ⟨0xF0FF, 0xE0A1⟩
  | .ldVxDt _ => ⟨0xF0FF, 0xF007⟩
  | .ldVxK _ => ⟨0xF0FF, 0xF00A⟩
  | .ldDtVx _ => ⟨0xF0FF, 0xF015⟩
  | .ldStVx _ => ⟨0xF0FF, 0xF018⟩
  | .addI _ => ⟨0xF0FF, 0xF01E⟩
  | .ldF _ => ⟨0xF0FF, 0xF029⟩
  | .ldB _ => ⟨0xF0FF, 0xF033⟩
  | .stRegs _ => ⟨0xF0FF, 0xF055⟩
  | .ldRegs _ => ⟨0xF0FF, 0xF065⟩

end Sys2Proof
end

