-- ==== Sys2Proof/Config.lean ====
section
/-! DEFINITION. The parameters the spec leaves open (00_scope.md R6), and the free value behind the random source. -/

namespace Sys2Proof

/-- The configuration given to Reset and constant from then on (R6, R190). The defaults are
`Machine.defaultConfig`. -/
structure Config where
  /-- `SHIFT_USES_VY`: the shifts 8XY6 and 8XYE shift VY into VX (true) or VX in place (false). -/
  shiftUsesVy    : Bool
  /-- `INDEX_INCREMENT`: FX55 and FX65 add X+1 to I (true) or leave I (false). -/
  indexIncrement : Bool
  /-- `FONT_BASE`: the first byte of the font table. The type is the constraint
  `FONT_BASE + 80 <= PROGRAM_ORIGIN` of R28: 0 to 0x1B0. -/
  fontBase       : Fin 433
  /-- `SYS_IS_NOP`: 0NNN does nothing (true) or fails UnknownInstruction (false). -/
  sysIsNop       : Bool
  deriving DecidableEq, Repr

/-- DESIGN CHOICE (entry 2), safe. The byte the external random source gives to request number `n` when the host
has scripted none: any value (R85, R133; 93_implementation_defined.md row 5). It has no body, so nothing can be
proved of its values. -/
opaque Config.randomByte : Nat → Byte

end Sys2Proof
end

