-- ==== Sys2Proof/Machine/Defaults.lean ====
section
/-! DEFINITION. The fixed parameters of 00_scope.md R6 that Reset uses, and the defaults of the open ones. -/

namespace Sys2Proof.Machine

/-- `MEM_SIZE`: bytes of memory (R6, R40). -/
def memSize : Nat := 4096

/-- `PROGRAM_ORIGIN`: where a program is loaded, and the reset value of PC (R6, R191). -/
def programOrigin : Word := 0x200#16

/-- The default configuration of R6: `SHIFT_USES_VY` and `INDEX_INCREMENT` true, `FONT_BASE` 0x050, `SYS_IS_NOP`
false. -/
def defaultConfig : Config where
  shiftUsesVy := true
  indexIncrement := true
  fontBase := 0x050
  sysIsNop := false

end Sys2Proof.Machine
end

