-- ==== Sys2Proof/Machine/State.lean ====
section
/-! DEFINITION. The complete state of one machine instance (10_state.md R10), the failures (60_exceptions.md R170), and
the state Reset leaves (70_reset_and_hazards.md R190). -/

namespace Sys2Proof.Machine

/-- The four failures of R170, with the values it records. A failure is the result of a Step (or a Load) and leaves
the state as it was (R172). Each is the spec's own failure, so stopping there is faithful. -/
inductive Fault where
  /-- Raised by 2NNN CALL when `SP = 16` (R103, R20). Safe: the spec's failure. -/
  | stackOverflow
  /-- Raised by 00EE RET when `SP = 0` (R101, R21). Safe: the spec's failure. -/
  | stackUnderflow
  /-- Raised by `step` on an opcode of the unknown space (R67), and by 0NNN SYS when `SYS_IS_NOP` is false (R100); it
  records the opcode. Safe: the spec's failure. -/
  | unknownInstruction (op : Word)
  /-- Raised by instruction fetch when `PC > 0x0FFE` (R81), recording `PC`, and by Load of bytes that do not fit
  (R90), recording the address of the last byte. Safe: the spec's failure. -/
  | outOfBoundsAccess (addr : Nat)
  deriving DecidableEq, Repr

/-- Why a step has no meaning. No meaning of this model refuses: every instruction of the table is modelled. -/
inductive Refusal where
  /-- An instruction rejected by name in `exec`'s arm. No arm does so. Safe. -/
  | notModelled (mnemonic : String)
  deriving DecidableEq, Repr

/-- `STATUS` (R22). -/
inductive Status where
  | ready
  | awaitingInput
  deriving DecidableEq, Repr

/-- `MEM`: the bytes that differ from what Reset leaves, by address, in the canonical form `Memory.wf` (R27). -/
abbrev Memory := List Host.Cell

/-- `FB`: 32 rows of 64 pixels, row 0 at the top, column 0 at the left, `true` = set (R29). -/
abbrev Framebuffer := Vector (Vector Bool 64) 32

/-- Every element of R10, and the two fields of the model's own that stand for the external random source. -/
structure State where
  /-- `V[0]` to `V[15]`; `VF` is `V[15]` (R11). -/
  v          : Vector Byte 16
  /-- `I` (R18). -/
  i          : Word
  /-- `PC` (R14). -/
  pc         : Word
  /-- `STACK[0]` to `STACK[15]` (R19). -/
  stack      : Vector Word 16
  /-- `SP`: how many entries of the stack are in use, 0 to 16 (R19). -/
  sp         : Fin 17
  /-- `DT`, the delay timer (R26, R178). -/
  dt         : Byte
  /-- `ST`, the sound timer (R26, R179). -/
  st         : Byte
  /-- `MEM` (R27). -/
  mem        : Memory
  /-- `FB` (R29). -/
  fb         : Framebuffer
  /-- `KEY[0]` to `KEY[15]`, `true` = pressed (R30). -/
  key        : Vector Bool 16
  /-- `STATUS` (R22). -/
  status     : Status
  /-- `WAITREG`: the register a key wait captures into (R23). -/
  waitReg    : Nibble
  /-- The configuration, written by Reset only (R10, R6). -/
  cfg        : Config
  /-- The model's own (entry 2): bytes the host has supplied to the random source and no CXNN has taken (R85). -/
  randScript : List Byte
  /-- The model's own (entry 2): how many bytes the random source has been asked for (R31, R85). -/
  randCount  : Nat
  deriving DecidableEq, Repr

/-- What `Reset(config)` leaves (R190). Memory lists nothing: an unlisted address reads as its reset contents. The
random source is outside the block; its two fields start empty (entry 2, DESIGN CHOICE). -/
def State.resetWith (c : Config) : State where
  v := Vector.replicate 16 0
  i := 0
  pc := programOrigin
  stack := Vector.replicate 16 0
  sp := 0
  dt := 0
  st := 0
  mem := []
  fb := Vector.replicate 32 (Vector.replicate 64 false)
  key := Vector.replicate 16 false
  status := .ready
  waitReg := 0
  cfg := c
  randScript := []
  randCount := 0

/-- The machine right after Reset with the default configuration (R190, R6). -/
def State.reset : State := State.resetWith defaultConfig

end Sys2Proof.Machine
end

