-- ==== Sys2Proof/Machine/Font.lean ====
section
/-! DEFINITION. The font table (10_state.md R28): 16 glyphs of 5 bytes, row 0 first. -/

namespace Sys2Proof.Machine

/-- `FONT_GLYPH_BYTES` (R6). -/
def fontGlyphBytes : Nat := 5

/-- Glyphs 0 to 7. -/
def fontLow : List Byte :=
  [0xF0, 0x90, 0x90, 0x90, 0xF0] ++ [0x20, 0x60, 0x20, 0x20, 0x70] ++
  [0xF0, 0x10, 0xF0, 0x80, 0xF0] ++ [0xF0, 0x10, 0xF0, 0x10, 0xF0] ++
  [0x90, 0x90, 0xF0, 0x10, 0x10] ++ [0xF0, 0x80, 0xF0, 0x10, 0xF0] ++
  [0xF0, 0x80, 0xF0, 0x90, 0xF0] ++ [0xF0, 0x10, 0x20, 0x40, 0x40]

/-- Glyphs 8 to F. -/
def fontHigh : List Byte :=
  [0xF0, 0x90, 0xF0, 0x90, 0xF0] ++ [0xF0, 0x90, 0xF0, 0x10, 0xF0] ++
  [0xF0, 0x90, 0xF0, 0x90, 0x90] ++ [0xE0, 0x90, 0xE0, 0x90, 0xE0] ++
  [0xF0, 0x80, 0x80, 0x80, 0xF0] ++ [0xE0, 0x90, 0x90, 0x90, 0xE0] ++
  [0xF0, 0x80, 0xF0, 0x80, 0xF0] ++ [0xF0, 0x80, 0xF0, 0x80, 0x80]

/-- The 80 bytes of the font table (R28). -/
def fontTable : List Byte := fontLow ++ fontHigh

/-- What the byte at address `a` holds after Reset (R28, R190): the font table at `FONT_BASE`, 0x00 elsewhere. It is
what an address that memory does not list reads as. -/
def resetByte (c : Config) (a : Nat) : Byte :=
  if c.fontBase.val ≤ a ∧ a < c.fontBase.val + 80 then fontTable.getD (a - c.fontBase.val) 0 else 0

end Sys2Proof.Machine
end

