-- ==== Sys2Proof/Machine/Ops.lean ====
section
/-! DEFINITION. The named operations every meaning is written with: registers (10_state.md), memory (20_memory.md), the
stack, the random source, fetch, and raising a failure. -/

namespace Sys2Proof.Machine

/-- What a Step answers: a next state, a failure, or a refusal. -/
abbrev Result := Host.Outcome State Fault Refusal

/-! ## Failures (60_exceptions.md)

This hardware takes no exception in the usual sense: no handler, no vector, no saved state, no return (R174, R175). A
synchronous exception is a failure returned to the host, and the state stays what it was (R172). -/

/-- `raise f`: the Step ends in the failure and changes nothing (R172). -/
def raise (f : Fault) : Result := .fault f

/-! ## General registers (R11) -/

/-- `V[r]`. -/
def State.readV (s : State) (r : Nibble) : Byte := s.v[r.toNat]'r.isLt

/-- `V[r] <- b`. -/
def State.writeV (s : State) (r : Nibble) (b : Byte) : State := { s with v := s.v.set r.toNat b r.isLt }

/-- The index of `VF`, the flag register (R24). -/
def vF : Nibble := 0xF#4

/-- A result and then a flag: `V[x] <- b`, then `VF <- f`, so that with `x = 0xF` the flag remains (R121). -/
def State.writeFlagged (s : State) (x : Nibble) (b f : Byte) : State := (s.writeV x b).writeV vF f

/-! ## Program counter (R14 to R16): relative to the address `pc0` the instruction was fetched from -/

/-- `pc <- pc0 + 2`, modulo 65536. -/
def State.advance (s : State) : State := { s with pc := s.pc + 2 }

/-- `pc <- target`, unmasked. -/
def State.jump (s : State) (target : Word) : State := { s with pc := target }

/-- `if c then pc <- pc0 + 4 else pc <- pc0 + 2`. -/
def State.skipIf (s : State) (c : Bool) : State := { s with pc := if c then s.pc + 4 else s.pc + 2 }

/-! ## Memory (20_memory.md) -/

/-- The byte at address `a` (below 4096): what the list holds for it, and otherwise what Reset left there. -/
def Memory.lookup (c : Config) (a : Nat) : Memory → Byte
  | [] => resetByte c a
  | (k, b) :: m => if k = a then b else Memory.lookup c a m

/-- Lists `b` for address `a`, in the order of addresses. -/
def Memory.insert (a : Nat) (b : Byte) : Memory → Memory
  | [] => [(a, b)]
  | (k, d) :: m =>
    if a < k then (a, b) :: (k, d) :: m
    else if a = k then (a, b) :: m
    else (k, d) :: Memory.insert a b m

/-- Lists nothing for address `a`. -/
def Memory.erase (a : Nat) (m : Memory) : Memory := m.filter (fun p => p.1 != a)

/-- Stores `b` at address `a` (below 4096) and keeps the canonical form: a byte equal to the reset contents is not
listed. -/
def Memory.update (c : Config) (a : Nat) (b : Byte) (m : Memory) : Memory :=
  if b = resetByte c a then Memory.erase a m else Memory.insert a b m

/-- The canonical form: addresses strictly rising and inside the 4096-byte space, and no entry equal to what an
unlisted address reads as. -/
abbrev Memory.wf (c : Config) (m : Memory) : Prop :=
  m.Pairwise (fun p q => p.1 < q.1) ∧ ∀ p ∈ m, p.1 < memSize ∧ p.2 ≠ resetByte c p.1

/-- `MemRead(a, 1)`: the address is reduced modulo 4096, so a data access never fails (R41, R42). -/
def State.readMem (s : State) (a : Nat) : Byte := s.mem.lookup s.cfg (a % memSize)

/-- `MemWrite(a, 1, b)`: the address is reduced modulo 4096; every address is writable (R41, R44). -/
def State.writeMem (s : State) (a : Nat) (b : Byte) : State :=
  { s with mem := s.mem.update s.cfg (a % memSize) b }

/-- Bytes to ascending addresses from `base` on (R48). -/
def State.writeBytes (s : State) (base : Nat) : List Byte → State
  | [] => s
  | b :: bs => (s.writeMem base b).writeBytes (base + 1) bs

/-- `n` bytes from ascending addresses from `base` on (R48). -/
def State.readBytes (s : State) (base : Nat) : Nat → List Byte
  | 0 => []
  | n + 1 => s.readMem base :: s.readBytes (base + 1) n

/-! ## Stack (R19 to R21) -/

/-- `Push(a)`: fails with StackOverflow when 16 entries are in use (R20). -/
def State.push (s : State) (a : Word) : Except Fault State :=
  if h : s.sp.val < 16 then
    .ok { s with stack := s.stack.set s.sp.val a h, sp := ⟨s.sp.val + 1, by omega⟩ }
  else .error .stackOverflow

/-- `Pop()`: fails with StackUnderflow when empty; the slot keeps its value (R21). -/
def State.pop (s : State) : Except Fault (Word × State) :=
  if h : 0 < s.sp.val then
    .ok (s.stack[s.sp.val - 1]'(by omega), { s with sp := ⟨s.sp.val - 1, by omega⟩ })
  else .error .stackUnderflow

/-! ## Random source (R25, R85) -/

/-- `RandByte()`: the next byte the host has scripted, or any byte where it has scripted none. -/
def State.nextRandom (s : State) : Byte := s.randScript.headD (Config.randomByte s.randCount)

/-- One byte of the random source is consumed. -/
def State.takeRandom (s : State) : State :=
  { s with randScript := s.randScript.tail, randCount := s.randCount + 1 }

/-! ## Keypad (R30, R89) -/

/-- `KEY[k]`. -/
def State.isPressed (s : State) (k : Nibble) : Bool := s.key[k.toNat]'k.isLt

/-- The sixteen key codes, least first. -/
def keyCodes : List Nibble :=
  [0x0, 0x1, 0x2, 0x3, 0x4, 0x5, 0x6, 0x7] ++ [0x8, 0x9, 0xA, 0xB, 0xC, 0xD, 0xE, 0xF]

/-- The least `k` with `KEY[k] = 1`, if any (R83, R162). -/
def State.lowestKey (s : State) : Option Nibble := keyCodes.find? s.isPressed

/-! ## Fetch (40_step_cycle.md R81) -/

/-- The highest address a fetch may start at: both bytes lie in memory. -/
def lastFetchAddr : Nat := 0x0FFE

/-- The opcode at address `a`, first byte most significant (R43, R45). -/
def State.opcodeAt (s : State) (a : Nat) : Word := (s.readMem a) ++ (s.readMem (a + 1))

/-- `Fetch()`: an out-of-range `PC` fails, and is not reduced. -/
def State.fetch (s : State) : Except Fault Word :=
  if lastFetchAddr < s.pc.toNat then .error (.outOfBoundsAccess s.pc.toNat)
  else .ok (s.opcodeAt s.pc.toNat)

end Sys2Proof.Machine
end

