-- ==== Sys2Proof/Machine/Operands.lean ====
section
/-! DEFINITION. How the operand fields of 30_encoding.md R62 become values: register operands are `State.readV`, `NN` and
`N` are used as they are, `NNN` is zero-extended; the rest is here. -/

namespace Sys2Proof.Machine

/-- `zext_16(NNN)`: unscaled, unsigned (R62). -/
def zextAddr (nnn : Addr12) : Word := nnn.setWidth 16

/-- `zext_16(V)`: a register as an addend (R104, R141). -/
def zextByte (b : Byte) : Word := b.setWidth 16

/-- `V[3:0]`: the low nibble of a register as a key code or font digit (R142, R160). -/
def lowNibble (b : Byte) : Nibble := b.extractLsb' 0 4

/-- A key code as a register value, 0x00 to 0x0F (R83, R162). -/
def keyByte (k : Nibble) : Byte := k.setWidth 8

/-- The source of the shifts: `V[Y]` if `SHIFT_USES_VY` else `V[X]` (R130, R132). -/
def State.shiftSource (s : State) (x y : Nibble) : Byte :=
  if s.cfg.shiftUsesVy then s.readV y else s.readV x

/-- `FONT_BASE + 5 * d`: where the glyph of digit `d` stands (R142, R28). -/
def State.glyphAddr (s : State) (d : Nibble) : Word :=
  BitVec.ofNat 16 (s.cfg.fontBase.val + fontGlyphBytes * d.toNat)

/-- Hundreds, tens and ones of a byte, one digit a byte (R143). -/
def bcdDigits (b : Byte) : List Byte :=
  [BitVec.ofNat 8 (b.toNat / 100), BitVec.ofNat 8 (b.toNat / 10 % 10), BitVec.ofNat 8 (b.toNat % 10)]

/-- `I` after FX55 or FX65: one past the last byte moved if `INDEX_INCREMENT`, else unchanged (R144, R145). -/
def State.indexAfter (s : State) (x : Nibble) : Word :=
  if s.cfg.indexIncrement then BitVec.ofNat 16 (s.i.toNat + x.toNat + 1) else s.i

end Sys2Proof.Machine
end

