-- ==== Sys2Proof/Machine/Flags.lean ====
section
/-! DEFINITION. The values written to `VF` as a flag (10_state.md R24). -/

namespace Sys2Proof.Machine

/-- A condition as a flag value: 1 or 0. -/
def flagByte (c : Bool) : Byte := if c then 1 else 0

/-- 8XY4: 1 if the sum exceeds 255 (R128). -/
def carryFlag (a b : Byte) : Byte := flagByte (decide (255 < a.toNat + b.toNat))

/-- 8XY5 and 8XY7: 1 if `a - b` needs no borrow, equality included (R129, R131). -/
def noBorrowFlag (a b : Byte) : Byte := flagByte (decide (b.toNat ≤ a.toNat))

/-- 8XY6: bit 0 of the source (R130). -/
def shiftRightFlag (a : Byte) : Byte := flagByte (a.getLsbD 0)

/-- 8XYE: bit 7 of the source (R132). -/
def shiftLeftFlag (a : Byte) : Byte := flagByte (a.getLsbD 7)

end Sys2Proof.Machine
end

