-- ==== Sys2Proof/Machine/Alu.lean ====
section
/-! DEFINITION. Register moves, arithmetic, logic, shifts, random (42_alu.md). Sources are read before anything is written,
and a flag is written after the result (R121). -/

namespace Sys2Proof.Machine

/-- 6XNN, LD Vx, byte (R122). -/
def execLdImm (x : Nibble) (nn : Byte) (s : State) : Result := .next (s.writeV x nn).advance

/-- 7XNN, ADD Vx, byte (R123): modulo 256, no flag. -/
def execAddImm (x : Nibble) (nn : Byte) (s : State) : Result := .next (s.writeV x (s.readV x + nn)).advance

/-- 8XY0, LD Vx, Vy (R124). -/
def execLdReg (x y : Nibble) (s : State) : Result := .next (s.writeV x (s.readV y)).advance

/-- 8XY1, OR Vx, Vy (R125). -/
def execOrReg (x y : Nibble) (s : State) : Result := .next (s.writeV x (s.readV x ||| s.readV y)).advance

/-- 8XY2, AND Vx, Vy (R126). -/
def execAndReg (x y : Nibble) (s : State) : Result := .next (s.writeV x (s.readV x &&& s.readV y)).advance

/-- 8XY3, XOR Vx, Vy (R127). -/
def execXorReg (x y : Nibble) (s : State) : Result := .next (s.writeV x (s.readV x ^^^ s.readV y)).advance

/-- 8XY4, ADD Vx, Vy (R128). -/
def execAddReg (x y : Nibble) (s : State) : Result :=
  let a := s.readV x
  let b := s.readV y
  .next (s.writeFlagged x (a + b) (carryFlag a b)).advance

/-- 8XY5, SUB Vx, Vy (R129). -/
def execSubReg (x y : Nibble) (s : State) : Result :=
  let a := s.readV x
  let b := s.readV y
  .next (s.writeFlagged x (a - b) (noBorrowFlag a b)).advance

/-- 8XY6, SHR Vx, Vy (R130). -/
def execShr (x y : Nibble) (s : State) : Result :=
  let a := s.shiftSource x y
  .next (s.writeFlagged x (a >>> 1) (shiftRightFlag a)).advance

/-- 8XY7, SUBN Vx, Vy (R131). -/
def execSubn (x y : Nibble) (s : State) : Result :=
  let a := s.readV x
  let b := s.readV y
  .next (s.writeFlagged x (b - a) (noBorrowFlag b a)).advance

/-- 8XYE, SHL Vx, Vy (R132). -/
def execShl (x y : Nibble) (s : State) : Result :=
  let a := s.shiftSource x y
  .next (s.writeFlagged x (a <<< 1) (shiftLeftFlag a)).advance

/-- CXNN, RND Vx, byte (R133): the source is asked exactly once, whatever `NN`. -/
def execRnd (x : Nibble) (nn : Byte) (s : State) : Result :=
  .next (s.takeRandom.writeV x (s.nextRandom &&& nn)).advance

end Sys2Proof.Machine
end

