-- ==== Sys2Proof/Machine/Display.lean ====
section
/-! DEFINITION. The display (44_display.md). A drawing is a framebuffer and whether a set pixel has been unset so far. -/

namespace Sys2Proof.Machine

/-- A column modulo the display width (R152). -/
def wrapX (n : Nat) : Fin 64 := ⟨n % 64, Nat.mod_lt n (by decide)⟩

/-- A row modulo the display height (R152). -/
def wrapY (n : Nat) : Fin 32 := ⟨n % 32, Nat.mod_lt n (by decide)⟩

/-- `FB[y][x]` (R29). -/
def Framebuffer.pixel (fb : Framebuffer) (x : Fin 64) (y : Fin 32) : Bool := fb[y][x]

/-- `FB[y][x] <- FB[y][x] ^ 1`. -/
def Framebuffer.toggle (fb : Framebuffer) (x : Fin 64) (y : Fin 32) : Framebuffer :=
  fb.set y.val (fb[y].set x.val (!fb.pixel x y) x.isLt) y.isLt

/-- Every pixel unset (R150). -/
def Framebuffer.blank : Framebuffer := Vector.replicate 32 (Vector.replicate 64 false)

/-- A drawing in progress: the grid, and the collision result so far (R152). -/
structure Drawing where
  fb        : Framebuffer
  collision : Bool
  deriving DecidableEq, Repr

/-- One sprite bit at a pixel: a 0 bit does nothing; a 1 bit inverts the pixel and collides if it was set (R152). -/
def Drawing.plot (d : Drawing) (x : Fin 64) (y : Fin 32) (bit : Bool) : Drawing :=
  if bit then { fb := d.fb.toggle x y, collision := d.collision || d.fb.pixel x y } else d

/-- Bits 0 to `n`-1 of a sprite row, bit `b` counted from the left, which is bit `7 - b` of the byte; each column is
wrapped on its own (R152). -/
def Drawing.row (d : Drawing) (x0 : Nat) (y : Fin 32) (byte : Byte) : Nat → Drawing
  | 0 => d
  | b + 1 => (d.row x0 y byte b).plot (wrapX (x0 + b)) y (byte.getLsbD (7 - b))

/-- `DrawSprite(x0, y0, rows)`: row by row, each row wrapped on its own (R152). -/
def Drawing.sprite (d : Drawing) (x0 y0 : Nat) : List Byte → Drawing
  | [] => d
  | byte :: rows => (d.row x0 (wrapY y0) byte 8).sprite x0 (y0 + 1) rows

/-- 00E0, CLS (R150). -/
def execCls (s : State) : Result := .next { s with fb := Framebuffer.blank }.advance

/-- What DXYN draws on the grid it finds: `N` bytes from `I` on, at the coordinates the registers hold (R151). -/
def State.drawSprite (s : State) (x y n : Nibble) : Drawing :=
  Drawing.sprite ⟨s.fb, false⟩ (s.readV x).toNat (s.readV y).toNat (s.readBytes s.i.toNat n.toNat)

/-- DXYN, DRW Vx, Vy, n (R151): coordinates are read before the collision result is written to `VF`. -/
def execDrw (x y n : Nibble) (s : State) : Result :=
  let d := s.drawSprite x y n
  .next ({ s with fb := d.fb }.writeV vF (flagByte d.collision)).advance

end Sys2Proof.Machine
end

