-- ==== Sys2Proof/Machine/Flow.lean ====
section
/-! DEFINITION. Control transfer and skips (41_flow.md). -/

namespace Sys2Proof.Machine

/-- 0NNN, SYS addr (R100): no operation if `SYS_IS_NOP`, else the failure UnknownInstruction with the opcode, which
is `NNN` under a zero family nibble. -/
def execSys (nnn : Addr12) (s : State) : Result :=
  if s.cfg.sysIsNop then .next s.advance else raise (.unknownInstruction (zextAddr nnn))

/-- 00EE, RET (R101). -/
def execRet (s : State) : Result :=
  match s.pop with
  | .ok (a, t) => .next (t.jump a)
  | .error f => raise f

/-- 1NNN, JP addr (R102). -/
def execJp (nnn : Addr12) (s : State) : Result := .next (s.jump (zextAddr nnn))

/-- 2NNN, CALL addr (R103). -/
def execCall (nnn : Addr12) (s : State) : Result :=
  match s.push (s.pc + 2) with
  | .ok t => .next (t.jump (zextAddr nnn))
  | .error f => raise f

/-- BNNN, JP V0, addr (R104): always V0, and the sum is not reduced to 12 bits. -/
def execJpV0 (nnn : Addr12) (s : State) : Result :=
  .next (s.jump (zextAddr nnn + zextByte (s.readV 0)))

/-- 3XNN, SE Vx, byte (R105). -/
def execSeImm (x : Nibble) (nn : Byte) (s : State) : Result := .next (s.skipIf (s.readV x == nn))

/-- 4XNN, SNE Vx, byte (R106). -/
def execSneImm (x : Nibble) (nn : Byte) (s : State) : Result := .next (s.skipIf (s.readV x != nn))

/-- 5XY0, SE Vx, Vy (R107). -/
def execSeReg (x y : Nibble) (s : State) : Result := .next (s.skipIf (s.readV x == s.readV y))

/-- 9XY0, SNE Vx, Vy (R108). -/
def execSneReg (x y : Nibble) (s : State) : Result := .next (s.skipIf (s.readV x != s.readV y))

end Sys2Proof.Machine
end

