-- ==== Sys2Proof/Machine/Index.lean ====
section
/-! DEFINITION. The index register and memory instructions (43_index_memory.md). -/

namespace Sys2Proof.Machine

/-- `I <- a`. -/
def State.writeI (s : State) (a : Word) : State := { s with i := a }

/-- The loop of FX55: `MemWrite(base + j, 1, V[j])` for the first `n` registers, ascending (R144). -/
def State.storeRegs (s : State) (base : Nat) : Nat → State
  | 0 => s
  | n + 1 => (s.storeRegs base n).writeMem (base + n) (s.readV (BitVec.ofNat 4 n))

/-- The loop of FX65: `V[j] <- MemRead(base + j, 1)` for the first `n` registers, ascending (R145). -/
def State.loadRegs (s : State) (base : Nat) : Nat → State
  | 0 => s
  | n + 1 => (s.loadRegs base n).writeV (BitVec.ofNat 4 n) (s.readMem (base + n))

/-- ANNN, LD I, addr (R140). -/
def execLdI (nnn : Addr12) (s : State) : Result := .next (s.writeI (zextAddr nnn)).advance

/-- FX1E, ADD I, Vx (R141): modulo 65536, no flag. -/
def execAddI (x : Nibble) (s : State) : Result := .next (s.writeI (s.i + zextByte (s.readV x))).advance

/-- FX29, LD F, Vx (R142). -/
def execLdF (x : Nibble) (s : State) : Result := .next (s.writeI (s.glyphAddr (lowNibble (s.readV x)))).advance

/-- FX33, LD B, Vx (R143): hundreds, tens, ones at ascending addresses from `I`. -/
def execLdB (x : Nibble) (s : State) : Result :=
  .next (s.writeBytes s.i.toNat (bcdDigits (s.readV x))).advance

/-- FX55, LD [I], Vx (R144). -/
def execStRegs (x : Nibble) (s : State) : Result :=
  .next ((s.storeRegs s.i.toNat (x.toNat + 1)).writeI (s.indexAfter x)).advance

/-- FX65, LD Vx, [I] (R145). -/
def execLdRegs (x : Nibble) (s : State) : Result :=
  .next ((s.loadRegs s.i.toNat (x.toNat + 1)).writeI (s.indexAfter x)).advance

end Sys2Proof.Machine
end

