-- ==== Sys2Proof/Machine/Keypad.lean ====
section
/-! DEFINITION. Keypad and timers (45_keypad_timers.md), and the Step that is awaiting a key (40_step_cycle.md R83). -/

namespace Sys2Proof.Machine

/-- EX9E, SKP Vx (R160). -/
def execSkp (x : Nibble) (s : State) : Result := .next (s.skipIf (s.isPressed (lowNibble (s.readV x))))

/-- EXA1, SKNP Vx (R161). -/
def execSknp (x : Nibble) (s : State) : Result := .next (s.skipIf (!s.isPressed (lowNibble (s.readV x))))

/-- FX0A, LD Vx, K (R162): the lowest pressed key at once, or the wait, with `PC` left where it is. -/
def execLdVxK (x : Nibble) (s : State) : Result :=
  match s.lowestKey with
  | some k => .next (s.writeV x (keyByte k)).advance
  | none => .next { s with waitReg := x, status := .awaitingInput }

/-- `Step()` when `STATUS = AwaitingInput` (R83): no fetch; the lowest pressed key resolves the wait, and without one
nothing changes. -/
def pollKey (s : State) : Result :=
  match s.lowestKey with
  | some k => .next { (s.writeV s.waitReg (keyByte k)).advance with status := .ready }
  | none => .next s

/-- FX07, LD Vx, DT (R164). -/
def execLdVxDt (x : Nibble) (s : State) : Result := .next (s.writeV x s.dt).advance

/-- FX15, LD DT, Vx (R165). -/
def execLdDtVx (x : Nibble) (s : State) : Result := .next { s with dt := s.readV x }.advance

/-- FX18, LD ST, Vx (R166). -/
def execLdStVx (x : Nibble) (s : State) : Result := .next { s with st := s.readV x }.advance

end Sys2Proof.Machine
end

