-- ==== Sys2Proof/Machine/Step.lean ====
section
/-! DEFINITION. One `Step()` (40_step_cycle.md R82, R83). -/

namespace Sys2Proof.Machine

/-- `Step()`: awaiting a key it only polls (R83); otherwise fetch, decode, execute (R82). An unknown opcode fails
UnknownInstruction (R67, R170). The status a successful Step reports is the next state's `status` (R84). -/
def step (s : State) : Host.Outcome State Fault Refusal :=
  match s.status with
  | .awaitingInput => pollKey s
  | .ready =>
    match s.fetch with
    | .error f => raise f
    | .ok op =>
      match decodeWord op with
      | some i => exec i s
      | none => raise (.unknownInstruction op)

/-- Where `withFetchWord` places its instruction: at `PC`, or at the program origin when no fetch is legal at `PC`. -/
def State.placeAddr (s : State) : Word := if lastFetchAddr < s.pc.toNat then programOrigin else s.pc

/-- The state with one instruction, numbered as spec/opcode_table.json numbers its bits, where the next Step fetches
(entry 5): its bytes at `PC`, and, where the state could not fetch there, `PC` at the program origin and `STATUS`
`Ready`. -/
def State.withFetchWord (s : State) (nbits w : Nat) : State :=
  { s.writeBytes s.placeAddr.toNat (tableWordBytes nbits w) with pc := s.placeAddr, status := .ready }

end Sys2Proof.Machine
end

