-- ==== Sys2Proof/Machine/HostOps.lean ====
section
/-! DEFINITION. The operations of the host (40_step_cycle.md R86 to R92, 70_reset_and_hazards.md R190, R192) and one machine
instance as the host sees it. Any list of operations is a legal run (R80): the interleaving is free (R180). -/

namespace Sys2Proof.Machine

/-! ## The operations on the state -/

/-- One timer under a Tick: one less if not zero (R87). -/
def countDown (t : Byte) : Byte := if t = 0 then 0 else t - 1

/-- `Tick()` (R87): both timers, independently; nothing else, in either `STATUS`. -/
def State.tick (s : State) : State := { s with dt := countDown s.dt, st := countDown s.st }

/-- `SetKey(k, pressed)` (R88). -/
def State.setKey (s : State) (k : Nibble) (pressed : Bool) : State :=
  { s with key := s.key.set k.toNat pressed k.isLt }

/-- `Load(bytes)` (R90): from the program origin, or OutOfBoundsAccess with the address of the last byte. -/
def State.load (s : State) (bytes : List Byte) : Except Fault State :=
  if memSize < programOrigin.toNat + bytes.length then
    .error (.outOfBoundsAccess (programOrigin.toNat + bytes.length - 1))
  else .ok (s.writeBytes programOrigin.toNat bytes)

/-- `Reset(config)` (R190): the reset state, whatever the state was. The random source is outside the block and is
not reset (entry 2). -/
def State.resetBy (s : State) (c : Config) : State :=
  { State.resetWith c with randScript := s.randScript, randCount := s.randCount }

/-- The host supplies the bytes its random source will give next (R25, R95): not an operation of R86, a way to state an
input. -/
def State.withRandom (s : State) (bytes : List Byte) : State := { s with randScript := bytes }

/-- `get_pixel(x, y)` (R91), typed to the grid. -/
def State.getPixel (s : State) (x : Fin 64) (y : Fin 32) : Bool := s.fb.pixel x y

/-- `get_delay()` (R91). -/
def State.getDelay (s : State) : Byte := s.dt

/-- `get_sound()` (R91). -/
def State.getSound (s : State) : Byte := s.st

/-- The sound output, the predicate `ST != 0` (R91, R179). -/
def State.soundOn (s : State) : Bool := s.st != 0

/-! ## One machine instance -/

/-- A machine as the host has it: its state, and the failure a Step or Load returned, if any (R175, entry 4). -/
structure Instance where
  state   : State
  failure : Option Fault
  deriving DecidableEq, Repr

/-- The complete list of R86. -/
inductive HostOp where
  | reset (c : Config)
  | load (bytes : List Byte)
  | step
  | tick
  | setKey (k : Nibble) (pressed : Bool)
  | getPixel (x : Fin 64) (y : Fin 32)
  | getDelay
  | getSound
  /-- Read of any other state element (R92). -/
  | readState
  deriving DecidableEq, Repr

/-- What an operation returns. -/
inductive Reply where
  /-- The operation is done and returns nothing. -/
  | done
  /-- `Ok(STATUS)` of a Step (R84). -/
  | ok (status : Status)
  /-- `Err(f)` of a Step or Load (R84, R90). -/
  | err (f : Fault)
  /-- Not executed: the machine has failed and awaits Reset (R95, R175, entry 4). -/
  | faulted (f : Fault)
  /-- A Step of an instruction with no meaning; no instruction has none. -/
  | refused (r : Refusal)
  | pixel (set : Bool)
  | counter (value : Byte)
  | wholeState (s : State)
  deriving DecidableEq, Repr

/-- One Step on an instance: a failed one stays failed until Reset (R95, R175); a failure leaves the state (R172). -/
def Instance.stepOnce (m : Instance) : Instance × Reply :=
  match m.failure with
  | some f => (m, .faulted f)
  | none =>
    match step m.state with
    | .next s => (⟨s, none⟩, .ok s.status)
    | .fault f => (⟨m.state, some f⟩, .err f)
    | .refused r => (m, .refused r)

/-- One Load on an instance: a failed Load writes no byte (R90, R172). -/
def Instance.loadBytes (m : Instance) (bytes : List Byte) : Instance × Reply :=
  match m.failure with
  | some f => (m, .faulted f)
  | none =>
    match m.state.load bytes with
    | .ok s => (⟨s, none⟩, .done)
    | .error f => (⟨m.state, some f⟩, .err f)

/-- One host operation (R86): the instance after it, and what it returns. -/
def Instance.issue (m : Instance) : HostOp → Instance × Reply
  | .reset c => (⟨m.state.resetBy c, none⟩, .done)
  | .load bytes => m.loadBytes bytes
  | .step => m.stepOnce
  | .tick => ({ m with state := m.state.tick }, .done)
  | .setKey k pressed => ({ m with state := m.state.setKey k pressed }, .done)
  | .getPixel x y => (m, .pixel (m.state.getPixel x y))
  | .getDelay => (m, .counter m.state.getDelay)
  | .getSound => (m, .counter m.state.getSound)
  | .readState => (m, .wholeState m.state)

/-- The host's operations in the order it issues them (R50). -/
def Instance.run (m : Instance) : List HostOp → Instance
  | [] => m
  | op :: ops => (m.issue op).1.run ops

/-! ## The end of a run -/

/-- A ready engine at a jump to itself, 1NNN with `NNN = PC`: the conventional end of a program (R94, R102). -/
def State.atSelfJump (s : State) : Bool :=
  s.status == .ready && decide (s.pc.toNat ≤ lastFetchAddr) &&
    decodeWord (s.opcodeAt s.pc.toNat) == some (.jp (s.pc.setWidth 12))

/-- The model's end-of-run predicate, which R94 and decision D33 leave to the model (entry 15, DESIGN CHOICE): no failure,
which is never a successful end (R175), and the engine at a jump to itself. Nothing stops there: the host may go on. -/
def Instance.ended (m : Instance) : Bool := m.failure.isNone && m.state.atSelfJump

/-- A machine instance right after Reset with the default configuration. -/
def Instance.fresh : Instance := ⟨State.reset, none⟩

end Sys2Proof.Machine
end

