-- ==== Sys2Proof/Safety.lean ====
section
/-! DEFINITION. What a reachable state looks like, and what a successful run is, in the terms the claims use. -/

namespace Sys2Proof.Machine

/-- Memory is in its canonical form. -/
abbrev State.memOk (s : State) : Prop := Memory.wf s.cfg s.mem

/-- `PC` is at most 0x10FE, the largest value any instruction produces (10_state.md R16). -/
abbrev State.pcOk (s : State) : Prop := s.pc.toNat ≤ 0x10FE

/-- Every return address in use is at most 0x1000 (41_flow.md R101). -/
abbrev State.stackOk (s : State) : Prop :=
  ∀ j : Fin 16, j.val < s.sp.val → s.stack[j].toNat ≤ 0x1000

/-- A waiting engine stands at an address it fetched from (10_state.md R23). -/
abbrev State.waitPcOk (s : State) : Prop := s.status = .awaitingInput → s.pc.toNat ≤ lastFetchAddr

/-- The invariant that every step and every host operation keeps. -/
structure State.Inv (s : State) : Prop where
  mem   : s.memOk
  pc    : s.pcOk
  stack : s.stackOk
  wait  : s.waitPcOk

/-- While awaiting a key, `PC` addresses the FX0A that began the wait and `WAITREG` is its `X` (10_state.md R23). Every step
keeps it; a Load may overwrite that FX0A. -/
abbrev State.WaitsAtKeyInstr (s : State) : Prop :=
  s.status = .awaitingInput → decodeWord (s.opcodeAt s.pc.toNat) = some (.ldVxK s.waitReg)

/-- A run is safe while no failure is recorded: a faulted state is never a successful end (60_exceptions.md R175). A run that
is safe and at its end is `Instance.ended` (40_step_cycle.md R94, entry 15). -/
def Instance.safe (m : Instance) : Bool := m.failure.isNone

end Sys2Proof.Machine
end

