-- ==== Sys2Proof/Certificates/Slice0/Obligations.lean ====
section
/-! DEFINITION. The statements for the provers. A statement of an instruction's result is also its completion statement and
its frame: it concludes that `exec` answers a next state and says every field of it. -/

namespace Sys2Proof.Statements

open Sys2Proof.Machine

/-- `exec i s` answers the state that differs from `s` in the general registers, which are `regs`, and in `PC`, which is
`pc0 + 2`: every other register, the stack, the timers, all of memory, the display, the keys, the status and the
configuration are unchanged. -/
def SetsRegs (i : Instr) (s : State) (regs : Nibble → Byte) : Prop :=
  ∃ t, exec i s = .next t ∧ (∀ r, t.readV r = regs r) ∧ t = { s with v := t.v, pc := s.pc + 2 }

/-- The general registers of `s` with `V[x] <- b`. -/
def regsWith (s : State) (x : Nibble) (b : Byte) : Nibble → Byte := fun r => if r = x then b else s.readV r

/-- The general registers of `s` with `V[x] <- b` and then `VF <- f`: where `x` is F the flag remains (R121). -/
def regsWithFlag (s : State) (x : Nibble) (b f : Byte) : Nibble → Byte := fun r =>
  if r = 0xF#4 then f else regsWith s x b r

/-- 1 if the condition holds, else 0. -/
def oneIf (c : Prop) [Decidable c] : Byte := if c then 1 else 0

/-- `exec i s` answers the state that differs from `s` in `PC` only: `pc0 + 4` if the condition holds, else
`pc0 + 2`. -/
def SkipsIf (i : Instr) (s : State) (c : Prop) : Prop :=
  (c → exec i s = .next { s with pc := s.pc + 4 }) ∧ (¬ c → exec i s = .next { s with pc := s.pc + 2 })

/-- `k` is the least key code whose key is pressed. -/
def LeastPressed (s : State) (k : Nibble) : Prop :=
  s.isPressed k = true ∧ ∀ j : Nibble, j.toNat < k.toNat → s.isPressed j = false

/-- Whether the sprite of `n` bytes at `I`, drawn at column `x0` and row `y0`, covers pixel (`px`, `py`) with a 1 bit:
distances are taken around the grid, and bit 7 is the leftmost pixel (R152). -/
def spriteCovers (s : State) (x0 y0 n : Nat) (px : Fin 64) (py : Fin 32) : Bool :=
  let b := (px.val + (64 - x0 % 64)) % 64
  let r := (py.val + (32 - y0 % 32)) % 32
  decide (b < 8) && decide (r < n) && (s.readMem (s.i.toNat + r)).getLsbD (7 - b)

/-- The sixteen glyphs of the font, five bytes each, row 0 in the high byte: the table of R28 written out. -/
def glyphs : List (BitVec 40) :=
  [0xF0909090F0, 0x2060202070, 0xF010F080F0, 0xF010F010F0] ++
  [0x9090F01010, 0xF080F010F0, 0xF080F090F0, 0xF010204040] ++
  [0xF090F090F0, 0xF090F010F0, 0xF090F09090, 0xE090E090E0] ++
  [0xF0808080F0, 0xE0909090E0, 0xF080F080F0, 0xF080F08080]

/-- Pushes return addresses one after another. -/
def pushAll : List Word → State → Except Fault State
  | [], s => .ok s
  | a :: as, s =>
    match s.push a with
    | .ok t => pushAll as t
    | .error f => .error f

/-- Pops `n` return addresses, the first popped first. -/
def popMany : Nat → State → Except Fault (List Word × State)
  | 0, s => .ok ([], s)
  | n + 1, s =>
    match s.pop with
    | .ok (a, t) =>
      match popMany n t with
      | .ok (as, u) => .ok (a :: as, u)
      | .error f => .error f
    | .error f => .error f

/-- `n` ticks. -/
def ticks : Nat → State → State
  | 0, s => s
  | n + 1, s => ticks n s.tick

/-- The instruction names `V[15]` as an ordinary destination (R24). -/
def namesVF : Instr → Bool
  | .ldImm x _ | .addImm x _ | .ldReg x _ | .orReg x _ | .andReg x _ | .xorReg x _ | .rnd x _ | .ldVxDt x | .ldVxK x
  | .ldRegs x => x == 0xF#4
  | .cls | .ret | .sys _ | .jp _ | .call _ | .seImm _ _ | .sneImm _ _ | .seReg _ _ | .addReg _ _ | .subReg _ _
  | .shr _ _ | .subn _ _ | .shl _ _ | .sneReg _ _ | .ldI _ | .jpV0 _ | .drw _ _ _ | .skp _ | .sknp _ | .ldDtVx _
  | .ldStVx _ | .addI _ | .ldF _ | .ldB _ | .stRegs _ => false

/-- The six instructions that write `VF` as a flag (R24). -/
def writesFlag : Instr → Bool
  | .addReg _ _ | .subReg _ _ | .subn _ _ | .shr _ _ | .shl _ _ | .drw _ _ _ => true
  | .cls | .ret | .sys _ | .jp _ | .call _ | .seImm _ _ | .sneImm _ _ | .seReg _ _ | .ldImm _ _ | .addImm _ _
  | .ldReg _ _ | .orReg _ _ | .andReg _ _ | .xorReg _ _ | .sneReg _ _ | .ldI _ | .jpV0 _ | .rnd _ _ | .skp _ | .sknp _
  | .ldVxDt _ | .ldVxK _ | .ldDtVx _ | .ldStVx _ | .addI _ | .ldF _ | .ldB _ | .stRegs _ | .ldRegs _ => false

/-- The values `PC` may have after an instruction: `pc0 + 2` unless R14 lists it as overriding that. The absolute targets are
those of R101 to R104 (BNNN's sum unmasked: the spec's decision D9, entry 10), the skips and FX0A those of R14; FX0A keeps
`pc0` only while it finds no key. -/
def pcValues : Instr → State → List Word
  | .jp nnn, _ => [nnn.setWidth 16]
  | .call nnn, _ => [nnn.setWidth 16]
  | .jpV0 nnn, s => [nnn.setWidth 16 + (s.readV 0).setWidth 16]
  | .ret, s => [s.stack.toList.getD (s.sp.val - 1) 0]
  | .seImm _ _, s | .sneImm _ _, s | .seReg _ _, s | .sneReg _ _, s | .skp _, s | .sknp _, s => [s.pc + 2, s.pc + 4]
  | .ldVxK _, s => [if s.lowestKey = none then s.pc else s.pc + 2]
  | .cls, s | .sys _, s | .ldImm _ _, s | .addImm _ _, s | .ldReg _ _, s | .orReg _ _, s | .andReg _ _, s
  | .xorReg _ _, s | .addReg _ _, s | .subReg _ _, s | .shr _ _, s | .subn _ _, s | .shl _ _, s | .ldI _, s
  | .rnd _ _, s | .drw _ _ _, s | .ldVxDt _, s | .ldDtVx _, s | .ldStVx _, s | .addI _, s | .ldF _, s | .ldB _, s
  | .stRegs _, s | .ldRegs _, s => [s.pc + 2]

/-- The opcode a ready engine with a legal `PC` fetches. -/
def fetched (s : State) : Word := s.readMem s.pc.toNat ++ s.readMem (s.pc.toNat + 1)

/-- The failure of a Step, from the conditions of R170: what fails, when. -/
def FailsWith (s : State) (f : Fault) : Prop :=
  s.status = .ready ∧
    ((0x0FFE < s.pc.toNat ∧ f = .outOfBoundsAccess s.pc.toNat) ∨
     (s.pc.toNat ≤ 0x0FFE ∧
      ((decodeWord (fetched s) = none ∧ f = .unknownInstruction (fetched s)) ∨
       (∃ nnn, decodeWord (fetched s) = some (.sys nnn) ∧ s.cfg.sysIsNop = false ∧
         f = .unknownInstruction (fetched s)) ∨
       (∃ nnn, decodeWord (fetched s) = some (.call nnn) ∧ s.sp.val = 16 ∧ f = .stackOverflow) ∨
       (decodeWord (fetched s) = some .ret ∧ s.sp.val = 0 ∧ f = .stackUnderflow))))

end Sys2Proof.Statements

section

open Sys2Proof Sys2Proof.Machine Sys2Proof.Statements

/-! ## Encoding (30_encoding.md) -/

/-- Opcodes written out nibble by nibble from R64, the ones D0 prints among them (R61); the pairing of most patterns is the
spec's own (G3, entry 10). -/
def Obligations.WrittenOpcodesDecode : Prop :=
  decodeWord 0x00E0#16 = some .cls ∧ decodeWord 0x00EE#16 = some .ret ∧ decodeWord 0x0123#16 = some (.sys 0x123#12) ∧
  decodeWord 0x1228#16 = some (.jp 0x228#12) ∧ decodeWord 0x6A05#16 = some (.ldImm 0xA#4 0x05#8) ∧
  decodeWord 0x7A0B#16 = some (.addImm 0xA#4 0x0B#8) ∧ decodeWord 0x8126#16 = some (.shr 0x1#4 0x2#4) ∧
  decodeWord 0xA300#16 = some (.ldI 0x300#12) ∧ decodeWord 0xD125#16 = some (.drw 0x1#4 0x2#4 0x5#4) ∧
  decodeWord 0xE5A1#16 = some (.sknp 0x5#4) ∧ decodeWord 0xF265#16 = some (.ldRegs 0x2#4) ∧
  decodeWord 0xF308#16 = none

/-- Decoding the bytes of any well-formed instruction gives it back, with the bytes after it: no bit of an operand is
dropped, big-endian (R45). -/
def Obligations.EncodeThenDecode : Prop :=
  ∀ (i : Instr) (rest : List Byte), i.wf = true →
    decodeWord (encode i) = some i ∧ decode (encodeBytes i ++ rest) = .ok (i, rest)

/-- An opcode has one meaning: what it decodes to is well formed and encodes back to it. -/
def Obligations.DecodeThenEncode : Prop :=
  ∀ (op : Word) (i : Instr), decodeWord op = some i → i.wf = true ∧ encode i = op

/-- The unknown space of R67, opcode by opcode (the spec's decision D3, entry 10). -/
def Obligations.UnknownSpaceIsExact : Prop :=
  ∀ op : Word, decodeWord op = none ↔
    (op.toNat / 4096 = 5 ∧ op.toNat % 16 ≠ 0) ∨
    (op.toNat / 4096 = 8 ∧ op.toNat % 16 ∈ [0x8, 0x9, 0xA, 0xB, 0xC, 0xD, 0xF]) ∨
    (op.toNat / 4096 = 9 ∧ op.toNat % 16 ≠ 0) ∨
    (op.toNat / 4096 = 14 ∧ op.toNat % 256 ∉ [0x9E, 0xA1]) ∨
    (op.toNat / 4096 = 15 ∧ op.toNat % 256 ∉ [0x07, 0x0A, 0x15, 0x18, 0x1E, 0x29, 0x33, 0x55, 0x65])

/-- An opcode decodes exactly when it has the pattern of some row of R64, and what it decodes to has that pattern. -/
def Obligations.DecodeFollowsOpcodeMap : Prop :=
  ∀ op : Word, (∀ i, decodeWord op = some i → i.row.matches op = true) ∧
    (decodeWord op = none → ∀ i : Instr, i.row.matches op = false)

/-- R65: CLS and RET before SYS, every other opcode of family 0 is SYS, and no other two rows can match one opcode
(the spec derives it from R64). -/
def Obligations.RowPrecedence : Prop :=
  (∀ op : Word, op.toNat < 0x1000 →
    decodeWord op = some (if op = 0x00E0#16 then .cls else if op = 0x00EE#16 then .ret else .sys (op.setWidth 12))) ∧
  (∀ (i j : Instr) (op : Word), i.row.matches op = true → j.row.matches op = true → i.row ≠ j.row →
    op = 0x00E0#16 ∨ op = 0x00EE#16)

/-! ## The Step (40_step_cycle.md) -/

/-- When the bytes at `PC` decode to an instruction, a Step of a ready engine is that instruction's `exec` at that
state; nothing is added around it (R82). -/
def Obligations.StepRunsTheDecodedInstruction : Prop :=
  ∀ (s : State) (i : Instr), s.status = .ready → s.pc.toNat ≤ 0x0FFE →
    decodeWord (s.readMem s.pc.toNat ++ s.readMem (s.pc.toNat + 1)) = some i → step s = exec i s

/-- R81: a fetch with `PC > 0x0FFE` fails, recording `PC`, and the Step with it; any other gives the big-endian opcode
at `PC` (R43; the bound is the spec's decision D8, entry 10). -/
def Obligations.FetchBoundsAndByteOrder : Prop :=
  ∀ s : State,
    (0x0FFE < s.pc.toNat → s.fetch = .error (.outOfBoundsAccess s.pc.toNat) ∧
      (s.status = .ready → step s = .fault (.outOfBoundsAccess s.pc.toNat))) ∧
    (s.pc.toNat ≤ 0x0FFE → ∃ op, s.fetch = .ok op ∧
      op.toNat = (s.readMem s.pc.toNat).toNat * 256 + (s.readMem (s.pc.toNat + 1)).toNat)

/-- A Step of a ready engine on an opcode of the unknown space fails with that opcode (R67, R170: the spec's decisions D3,
D25, entry 10). -/
def Obligations.UnknownOpcodeFails : Prop :=
  ∀ s : State, s.status = .ready → s.pc.toNat ≤ 0x0FFE → decodeWord (fetched s) = none →
    step s = .fault (.unknownInstruction (fetched s))

/-- R83: a Step awaiting a key takes the least pressed one, or changes nothing (the spec's decision D21, entry 10). -/
def Obligations.WaitingStepPollsTheKeys : Prop :=
  ∀ s : State, s.status = .awaitingInput →
    (∀ k, LeastPressed s k → ∃ t, step s = .next t ∧ (∀ r, t.readV r = regsWith s s.waitReg (k.setWidth 8) r) ∧
      t = { s with v := t.v, pc := s.pc + 2, status := .ready }) ∧
    ((∀ k, s.isPressed k = false) → step s = .next s)

/-- R170, R171, R173: a Step never refuses, and it fails exactly in the cases of the table, with the failure and the
value the table records (the values are the spec's decision D25, entry 10). -/
def Obligations.StepFailsExactlyAsListed : Prop :=
  ∀ s : State, (∀ r, step s ≠ .refused r) ∧ ∀ f, step s = .fault f ↔ FailsWith s f

/-- The placed instruction is what the next Step runs (entry 5: the model's own function for the load from outside). -/
def Obligations.PlacedWordIsRunNext : Prop :=
  ∀ (s : State) (w : Nat), w < 65536 →
    (∀ i, decodeTableWord 16 w = some i → step (s.withFetchWord 16 w) = exec i (s.withFetchWord 16 w)) ∧
    (decodeTableWord 16 w = none →
      step (s.withFetchWord 16 w) = .fault (.unknownInstruction (BitVec.ofNat 16 w)))

/-! ## Control transfer (41_flow.md) -/

/-- R100: SYS does nothing where `SYS_IS_NOP`, else it fails with its opcode `0NNN` (the spec's decision D2, entry 10; the
recorded opcode, entry 11). -/
def Obligations.SysByConfiguration : Prop :=
  ∀ (s : State) (nnn : Addr12),
    (s.cfg.sysIsNop = true → exec (.sys nnn) s = .next { s with pc := s.pc + 2 }) ∧
    (s.cfg.sysIsNop = false → ∃ op : Word, op.toNat = nnn.toNat ∧ exec (.sys nnn) s = .fault (.unknownInstruction op))

/-- R101: RET pops the newest entry into `PC`, all 16 bits, and fails on an empty stack. -/
def Obligations.RetPopsTheReturnAddress : Prop :=
  ∀ s : State,
    (s.sp.val = 0 → exec .ret s = .fault .stackUnderflow) ∧
    (∀ j : Fin 16, s.sp.val = j.val + 1 → ∃ t, exec .ret s = .next t ∧ t.pc = s.stack[j] ∧ t.sp.val = j.val ∧
      t = { s with pc := t.pc, sp := t.sp })

/-- R102, R104: the jumps write `PC` without reducing it, and nothing else; BNNN adds `V[0]` (that sum
unmasked: the spec's decision D9, entry 10). -/
def Obligations.JumpsSetPc : Prop :=
  ∀ (s : State) (nnn : Addr12),
    (∃ t, exec (.jp nnn) s = .next t ∧ t.pc.toNat = nnn.toNat ∧ t = { s with pc := t.pc }) ∧
    (∃ t, exec (.jpV0 nnn) s = .next t ∧ t.pc.toNat = nnn.toNat + (s.readV 0).toNat ∧ t = { s with pc := t.pc })

/-- R103: CALL pushes `pc0 + 2` into `STACK[SP]` and jumps, and fails on a full stack (the spec's
decision D24, entry 10). -/
def Obligations.CallPushesTheReturnAddress : Prop :=
  ∀ (s : State) (nnn : Addr12),
    (s.sp.val = 16 → exec (.call nnn) s = .fault .stackOverflow) ∧
    (s.sp.val < 16 → ∃ t, exec (.call nnn) s = .next t ∧ t.pc.toNat = nnn.toNat ∧ t.sp.val = s.sp.val + 1 ∧
      (∀ j : Fin 16, t.stack[j] = if j.val = s.sp.val then s.pc + 2 else s.stack[j]) ∧
      t = { s with pc := t.pc, sp := t.sp, stack := t.stack })

/-- R20, R21 with D0's property: a push fills the slot at `SP`, a pop takes the one below it and writes no slot; pushed
addresses come back in reverse order and the entries below stay; a push on 16 entries and a pop on none fail. -/
def Obligations.StackIsLifo : Prop :=
  (∀ (s : State) (a : Word) (j : Fin 16), s.sp.val = j.val →
    ∃ t, s.push a = .ok t ∧ t.sp.val = j.val + 1 ∧ (∀ k : Fin 16, t.stack[k] = if k = j then a else s.stack[k]) ∧
      t = { s with sp := t.sp, stack := t.stack } ∧
      ∃ u, t.pop = .ok (a, u) ∧ u.sp = s.sp ∧ u = { t with sp := u.sp }) ∧
  (∀ (s : State) (as : List Word), s.sp.val + as.length ≤ 16 →
    ∃ t u, pushAll as s = .ok t ∧ t.sp.val = s.sp.val + as.length ∧ popMany as.length t = .ok (as.reverse, u) ∧
      u.sp = s.sp ∧ ∀ j : Fin 16, j.val < s.sp.val → u.stack[j] = s.stack[j]) ∧
  (∀ (s : State) (a : Word), s.sp.val = 16 → s.push a = .error .stackOverflow) ∧
  (∀ s : State, s.sp.val = 0 → s.pop = .error .stackUnderflow)

/-- R105 to R108, R160, R161: the six skips change `PC` only, by 4 or by 2 (the key skips use the low nibble
by the spec's decision D20, entry 10). -/
def Obligations.SkipsTestTheirCondition : Prop :=
  ∀ (s : State) (x y : Nibble) (nn : Byte),
    SkipsIf (.seImm x nn) s (s.readV x = nn) ∧ SkipsIf (.sneImm x nn) s (s.readV x ≠ nn) ∧
    SkipsIf (.seReg x y) s (s.readV x = s.readV y) ∧ SkipsIf (.sneReg x y) s (s.readV x ≠ s.readV y) ∧
    SkipsIf (.skp x) s (s.key.toList[(s.readV x).toNat % 16]? = some true) ∧
    SkipsIf (.sknp x) s (s.key.toList[(s.readV x).toNat % 16]? = some false)

/-! ## Registers and arithmetic (42_alu.md) -/

/-- R122, R124, R164: the copies into a register (no flag: the spec's decision D13, entry 10). -/
def Obligations.LoadsCopyIntoRegister : Prop :=
  ∀ (s : State) (x y : Nibble) (nn : Byte),
    SetsRegs (.ldImm x nn) s (regsWith s x nn) ∧ SetsRegs (.ldReg x y) s (regsWith s x (s.readV y)) ∧
    SetsRegs (.ldVxDt x) s (regsWith s x s.dt)

/-- R123, R125, R126, R127: immediate add modulo 256 and the bitwise operations, bit by bit; no flag is written
(of the bitwise ones by the spec's decision D13, entry 10). -/
def Obligations.FlaglessArithmetic : Prop :=
  ∀ (s : State) (x y : Nibble) (nn : Byte),
    SetsRegs (.addImm x nn) s (regsWith s x (BitVec.ofNat 8 (((s.readV x).toNat + nn.toNat) % 256))) ∧
    ∃ o a e : Byte, SetsRegs (.orReg x y) s (regsWith s x o) ∧ SetsRegs (.andReg x y) s (regsWith s x a) ∧
      SetsRegs (.xorReg x y) s (regsWith s x e) ∧
      ∀ b < 8, o.getLsbD b = ((s.readV x).getLsbD b || (s.readV y).getLsbD b) ∧
        a.getLsbD b = ((s.readV x).getLsbD b && (s.readV y).getLsbD b) ∧
        e.getLsbD b = ((s.readV x).getLsbD b ^^ (s.readV y).getLsbD b)

/-- R128, R129, R131: sums and differences modulo 256 and their flags, the flag last (R121): the spec's decisions
D11 and D12 (entry 10). -/
def Obligations.AddAndSubtractWithFlag : Prop :=
  ∀ (s : State) (x y : Nibble) (a b : Nat), a = (s.readV x).toNat → b = (s.readV y).toNat →
    SetsRegs (.addReg x y) s (regsWithFlag s x (BitVec.ofNat 8 ((a + b) % 256)) (oneIf (255 < a + b))) ∧
    SetsRegs (.subReg x y) s (regsWithFlag s x (BitVec.ofNat 8 ((a + 256 - b) % 256)) (oneIf (b ≤ a))) ∧
    SetsRegs (.subn x y) s (regsWithFlag s x (BitVec.ofNat 8 ((b + 256 - a) % 256)) (oneIf (a ≤ b)))

/-- R130, R132: shifts by one of the register `SHIFT_USES_VY` selects, and the bit shifted out (the spec's
decisions D11, D14, entry 10). -/
def Obligations.ShiftsBothQuirks : Prop :=
  ∀ (s : State) (x y : Nibble) (a : Nat),
    a = (if s.cfg.shiftUsesVy = true then (s.readV y).toNat else (s.readV x).toNat) →
    SetsRegs (.shr x y) s (regsWithFlag s x (BitVec.ofNat 8 (a / 2)) (BitVec.ofNat 8 (a % 2))) ∧
    SetsRegs (.shl x y) s (regsWithFlag s x (BitVec.ofNat 8 (2 * a % 256)) (BitVec.ofNat 8 (a / 128)))

/-- R133, R85: one byte is drawn, masked and written; where the host has scripted the source the byte is the next
scripted one, for every value of it, and nothing is said of the byte otherwise (the two fields of the source are the
model's own, entry 2; decision D22). -/
def Obligations.RandomByteAndMask : Prop :=
  ∀ (s : State) (x : Nibble) (nn : Byte), ∃ (r : Byte) (t : State), exec (.rnd x nn) s = .next t ∧
    (∀ j, t.readV j = regsWith s x (r &&& nn) j) ∧ t.randCount = s.randCount + 1 ∧
    (∀ b rest, s.randScript = b :: rest → r = b ∧ t.randScript = rest) ∧ (s.randScript = [] → t.randScript = []) ∧
    t = { s with v := t.v, pc := s.pc + 2, randScript := t.randScript, randCount := t.randCount }

/-! ## Index register and memory (43_index_memory.md, 20_memory.md) -/

/-- R140, R141, R142: the three writes of `I`, by their values; nothing else but `PC` changes (FX1E unmasked and FX29's low
nibble: the spec's decisions D16, D5, D17, entry 10). -/
def Obligations.IndexRegisterWrites : Prop :=
  ∀ (s : State) (x : Nibble) (nnn : Addr12),
    (∃ t, exec (.ldI nnn) s = .next t ∧ t.i.toNat = nnn.toNat ∧ t = { s with i := t.i, pc := s.pc + 2 }) ∧
    (∃ t, exec (.addI x) s = .next t ∧ t.i.toNat = (s.i.toNat + (s.readV x).toNat) % 65536 ∧
      t = { s with i := t.i, pc := s.pc + 2 }) ∧
    (∃ t, exec (.ldF x) s = .next t ∧ t.i.toNat = s.cfg.fontBase.val + 5 * ((s.readV x).toNat % 16) ∧
      t = { s with i := t.i, pc := s.pc + 2 })

/-- R143: hundreds, tens and ones at `I`, `I + 1`, `I + 2`; every other byte of memory reads as before (the
order is the spec's decision D18, entry 10). -/
def Obligations.BcdStoresThreeDigits : Prop :=
  ∀ (s : State) (x : Nibble), ∃ t, exec (.ldB x) s = .next t ∧
    (t.readMem s.i.toNat).toNat = (s.readV x).toNat / 100 ∧
    (t.readMem (s.i.toNat + 1)).toNat = (s.readV x).toNat / 10 % 10 ∧
    (t.readMem (s.i.toNat + 2)).toNat = (s.readV x).toNat % 10 ∧
    (∀ a, (∀ j < 3, a % 4096 ≠ (s.i.toNat + j) % 4096) → t.readMem a = s.readMem a) ∧
    t = { s with mem := t.mem, pc := s.pc + 2 }

/-- R144: `V[0]` to `V[X]` at ascending addresses from `I`, every other byte as before, and `I` by
`INDEX_INCREMENT` (the spec's decisions D14, D15, entry 10). -/
def Obligations.RegistersStoreToMemory : Prop :=
  ∀ (s : State) (x : Nibble), ∃ t, exec (.stRegs x) s = .next t ∧
    (∀ j : Nibble, j.toNat ≤ x.toNat → t.readMem (s.i.toNat + j.toNat) = s.readV j) ∧
    (∀ a, (∀ j ≤ x.toNat, a % 4096 ≠ (s.i.toNat + j) % 4096) → t.readMem a = s.readMem a) ∧
    t.i.toNat = (if s.cfg.indexIncrement = true then (s.i.toNat + x.toNat + 1) % 65536 else s.i.toNat) ∧
    t = { s with mem := t.mem, i := t.i, pc := s.pc + 2 }

/-- R145: `V[0]` to `V[X]` from ascending addresses from `I`, the other registers and all memory as before, and `I` by
`INDEX_INCREMENT` (the spec's decisions D14, D15, entry 10). -/
def Obligations.RegistersLoadFromMemory : Prop :=
  ∀ (s : State) (x : Nibble), ∃ t, exec (.ldRegs x) s = .next t ∧
    (∀ r : Nibble, t.readV r = if r.toNat ≤ x.toNat then s.readMem (s.i.toNat + r.toNat) else s.readV r) ∧
    t.i.toNat = (if s.cfg.indexIncrement = true then (s.i.toNat + x.toNat + 1) % 65536 else s.i.toNat) ∧
    t = { s with v := t.v, i := t.i, pc := s.pc + 2 }

/-- R41, R42, R44: an access reduces its address modulo 4096; a written byte reads back and no other byte changes; a read
is any byte's last write (the reduction is the spec's decision D7, entry 10). -/
def Obligations.ReadAfterWrite : Prop :=
  ∀ (s : State) (a k : Nat) (b : Byte),
    (s.writeMem a b).readMem k = (if k % 4096 = a % 4096 then b else s.readMem k) ∧
    s.readMem (k + 4096) = s.readMem k ∧
    s.writeMem a b = { s with mem := (s.writeMem a b).mem }

/-- R53: a store of two registers over the next instruction is what the next fetch reads (the spec's decision D6,
entry 10). -/
def Obligations.StoreIsSeenByTheNextFetch : Prop :=
  ∀ (s : State) (x : Nibble), 1 ≤ x.toNat → s.i = s.pc + 2 → s.pc.toNat ≤ 0x0FFC →
    ∃ t, exec (.stRegs x) s = .next t ∧ t.fetch = .ok (s.readV 0 ++ s.readV 1)

/-! ## Display (44_display.md) -/

/-- R150: every pixel is unset and nothing else but `PC` changes, `VF` included. -/
def Obligations.ClearUnsetsEveryPixel : Prop :=
  ∀ s : State, ∃ t, exec .cls s = .next t ∧ (∀ px py, t.getPixel px py = false) ∧
    t = { s with fb := t.fb, pc := s.pc + 2 }

/-- R151, R152, R153: the loops of the draw against its meaning pixel by pixel: a pixel is inverted exactly when a 1 bit of
the sprite falls on it, each position wrapped on its own, and `VF` is 1 exactly when a pixel went from set to unset
(bit 7 leftmost: the spec's decision D19, entry 10). -/
def Obligations.DrawInvertsCoveredPixels : Prop :=
  ∀ (s : State) (x y n : Nibble), ∃ t, exec (.drw x y n) s = .next t ∧
    (∀ px py, t.getPixel px py =
      (s.getPixel px py ^^ spriteCovers s (s.readV x).toNat (s.readV y).toNat n.toNat px py)) ∧
    (∀ r, t.readV r = if r = 0xF#4 then
      oneIf (∃ px py, s.getPixel px py = true ∧ t.getPixel px py = false) else s.readV r) ∧
    t = { s with v := t.v, fb := t.fb, pc := s.pc + 2 }

/-- R154: the same sprite at the same coordinates again restores the grid, and its flag says whether the first draw set a
pixel that was unset. -/
def Obligations.DrawTwiceRestores : Prop :=
  ∀ (s : State) (x y n : Nibble), ∃ t u, exec (.drw x y n) s = .next t ∧ exec (.drw x y n) { t with v := s.v } = .next u ∧
    u.fb = s.fb ∧ (u.readV 0xF#4 = 1#8 ↔ ∃ px py, s.getPixel px py = false ∧ t.getPixel px py = true) ∧
    (u.readV 0xF#4 = 0#8 ∨ u.readV 0xF#4 = 1#8)

/-- R155, D0's example: 0xFF at (60, 0) on an empty display sets columns 60 to 63 and 0 to 3 of row 0. -/
def Obligations.DrawWrapsAtTheRightEdge : Prop :=
  ∀ (s : State) (x y : Nibble), (∀ px py, s.getPixel px py = false) → s.readV x = 60#8 → s.readV y = 0#8 →
    s.readMem s.i.toNat = 0xFF#8 → ∃ t, exec (.drw x y 1#4) s = .next t ∧ t.readV 0xF#4 = 0#8 ∧
      ∀ px py, t.getPixel px py = true ↔ py.val = 0 ∧ (60 ≤ px.val ∨ px.val ≤ 3)

/-! ## Keypad and timers (45_keypad_timers.md) -/

/-- R162: FX0A takes the least pressed key at once, or latches its register and waits with `PC` where it is
(the spec's decision D21, entry 10). -/
def Obligations.KeyInstructionTakesOrWaits : Prop :=
  ∀ (s : State) (x : Nibble),
    (∀ k, LeastPressed s k → SetsRegs (.ldVxK x) s (regsWith s x (k.setWidth 8))) ∧
    ((∀ k, s.isPressed k = false) →
      exec (.ldVxK x) s = .next { s with waitReg := x, status := .awaitingInput })

/-- R165, R166: the timers take the register's value, the sound output is on at once where that is not zero, and nothing else
but `PC` changes. -/
def Obligations.TimersAreOverwritten : Prop :=
  ∀ (s : State) (x : Nibble),
    (∃ t, exec (.ldDtVx x) s = .next t ∧ t.dt = s.readV x ∧ t = { s with dt := t.dt, pc := s.pc + 2 }) ∧
    (∃ t, exec (.ldStVx x) s = .next t ∧ t.st = s.readV x ∧ (t.soundOn = true ↔ s.readV x ≠ 0#8) ∧
      t = { s with st := t.st, pc := s.pc + 2 })

/-! ## The whole machine (10_state.md) -/

/-- R10's table of writers, for a Step: what changes an element is one of its writers, no Step writes a key or the
configuration, and a Step that awaits a key writes no more than a register, `PC` and `STATUS`. The last clause is not of that
table: only CXNN asks the random source (R85, the spec's decision D22, entry 10), whose two fields are the model's own
(entry 2, DESIGN CHOICE). -/
def Obligations.OnlyWritersChangeState : Prop :=
  ∀ s t : State, step s = .next t →
    t.key = s.key ∧ t.cfg = s.cfg ∧
    (s.status = .awaitingInput → t = { s with v := t.v, pc := t.pc, status := t.status }) ∧
    ∀ i, decodeWord (fetched s) = some i → s.status = .ready →
      (t.i ≠ s.i → (∃ a, i = .ldI a) ∨ (∃ x, i = .addI x) ∨ (∃ x, i = .ldF x) ∨
        (s.cfg.indexIncrement = true ∧ ((∃ x, i = .stRegs x) ∨ (∃ x, i = .ldRegs x)))) ∧
      (t.stack ≠ s.stack → ∃ a, i = .call a) ∧
      (t.sp ≠ s.sp → (∃ a, i = .call a) ∨ i = .ret) ∧
      (t.dt ≠ s.dt → ∃ x, i = .ldDtVx x) ∧
      (t.st ≠ s.st → ∃ x, i = .ldStVx x) ∧
      (t.mem ≠ s.mem → (∃ x, i = .ldB x) ∨ (∃ x, i = .stRegs x)) ∧
      (t.fb ≠ s.fb → i = .cls ∨ ∃ x y n, i = .drw x y n) ∧
      (t.status ≠ s.status → ∃ x, i = .ldVxK x) ∧
      (t.waitReg ≠ s.waitReg → ∃ x, i = .ldVxK x) ∧
      (t.randCount ≠ s.randCount ∨ t.randScript ≠ s.randScript → ∃ x nn, i = .rnd x nn)

/-- R24: `VF` changes only by the six instructions that write it as a flag, and by those that name it as their
destination (the spec's decisions D11 to D13, entry 10). -/
def Obligations.OnlyFlagWritersChangeVF : Prop :=
  ∀ (i : Instr) (s t : State), exec i s = .next t → t.readV 0xF#4 ≠ s.readV 0xF#4 →
    writesFlag i = true ∨ namesVF i = true

/-- R14, R16: after a successful instruction `PC` is `pc0 + 2` modulo 65536, or, for the instructions R14 lists as overriding
it, the absolute target of R101 to R104, a skip's `pc0 + 4`, or FX0A's `pc0`. That `PC`, and so BNNN's sum, is not masked is
the spec's decision D9 (entry 10). -/
def Obligations.PcAfterEachInstruction : Prop :=
  ∀ (i : Instr) (s t : State), exec i s = .next t → t.pc ∈ pcValues i s

/-- The reset state meets the invariant, for every configuration (the model's own invariant, Safety.lean). -/
def Obligations.ResetMeetsTheInvariant : Prop :=
  ∀ c : Config, (State.resetWith c).Inv ∧ (State.resetWith c).WaitsAtKeyInstr

/-- Every Step keeps the invariant: memory canonical, `PC` at most 0x10FE (R16), return addresses at most 0x1000
(R101), a waiting engine at a fetchable address. -/
def Obligations.StepKeepsTheInvariant : Prop :=
  ∀ s t : State, s.Inv → step s = .next t → t.Inv

/-- R23: while awaiting a key, `PC` addresses the FX0A and `WAITREG` is its `X`; every Step keeps that (the
latch is the spec's decision D21, entry 10). -/
def Obligations.StepKeepsTheWaitLatch : Prop :=
  ∀ s t : State, s.WaitsAtKeyInstr → step s = .next t → t.WaitsAtKeyInstr

/-- Whatever the host does, in whatever order, from Reset on, the invariant holds (R80; host operations after
a failure as entry 4 has them). -/
def Obligations.EveryHostRunKeepsTheInvariant : Prop :=
  ∀ (m : Instance) (ops : List HostOp), m.state.Inv → (m.run ops).state.Inv

/-! ## The host's operations (40_step_cycle.md, 60_exceptions.md, 70_reset_and_hazards.md) -/

/-- R87: `n` ticks take `n` from each timer on its own, never below zero, and change nothing else. -/
def Obligations.TicksCountDownToZero : Prop :=
  ∀ (n : Nat) (s : State), (ticks n s).dt.toNat = s.dt.toNat - n ∧ (ticks n s).st.toNat = s.st.toNat - n ∧
    ticks n s = { s with dt := (ticks n s).dt, st := (ticks n s).st }

/-- R88: SetKey sets one key and changes nothing else; it does not resolve a wait (the spec's decision D26,
entry 10). -/
def Obligations.SetKeySetsOneKey : Prop :=
  ∀ (s : State) (k j : Nibble) (p : Bool),
    (s.setKey k p).isPressed j = (if j = k then p else s.isPressed j) ∧
    s.setKey k p = { s with key := (s.setKey k p).key }

/-- R90: a Load that fits puts byte `j` at 0x200 + `j` and changes no other byte and nothing else; one that does not
fails, with the address of the last byte (the spec's decisions D25, D27, entries 8 and 10). -/
def Obligations.LoadPlacesTheProgram : Prop :=
  ∀ (s : State) (bytes : List Byte),
    (4096 < 0x200 + bytes.length → s.load bytes = .error (.outOfBoundsAccess (0x200 + bytes.length - 1))) ∧
    (0x200 + bytes.length ≤ 4096 → ∃ t, s.load bytes = .ok t ∧
      (∀ (j : Nat) (h : j < bytes.length), t.readMem (0x200 + j) = bytes[j]) ∧
      (∀ a < 4096, a < 0x200 ∨ 0x200 + bytes.length ≤ a → t.readMem a = s.readMem a) ∧
      t = { s with mem := t.mem })

/-- R192: after Reset and a Load of a program, the first Step runs its first opcode (the spec derives it from R190). -/
def Obligations.BootRunsTheFirstOpcode : Prop :=
  ∀ (s : State) (c : Config) (hi lo : Byte) (rest : List Byte) (i : Instr), rest.length ≤ 3582 →
    decodeWord (hi ++ lo) = some i → ∃ t, (s.resetBy c).load (hi :: lo :: rest) = .ok t ∧ step t = exec i t

/-- R190: every element after Reset, for every configuration and whatever the state was (the spec's decision D28,
entry 10). -/
def Obligations.ResetElementByElement : Prop :=
  ∀ (s t : State) (c : Config), t = s.resetBy c →
    (∀ r, t.readV r = 0#8) ∧ t.i = 0#16 ∧ t.pc = 0x200#16 ∧ t.sp.val = 0 ∧ (∀ j : Fin 16, t.stack[j] = 0#16) ∧
    t.dt = 0#8 ∧ t.st = 0#8 ∧ (∀ px py, t.getPixel px py = false) ∧ (∀ k, t.isPressed k = false) ∧
    t.status = .ready ∧ t.waitReg = 0#4 ∧ t.cfg = c ∧
    (∀ a < 4096, a < c.fontBase.val ∨ c.fontBase.val + 80 ≤ a → t.readMem a = 0#8)

/-- R28: the font table at reset, glyph `d` at `FONT_BASE + 5 * d`, its bytes as the table of R28 writes them
(the spec's decision D5, entry 10). -/
def Obligations.FontTableAtReset : Prop :=
  ∀ (c : Config) (d r : Nat), d < 16 → r < 5 →
    (State.resetWith c).readMem (c.fontBase.val + 5 * d + r) = (glyphs.getD d 0).extractLsb' (8 * (4 - r)) 8

/-- R172, R175, R95: a failed Step leaves the whole state; whatever the host does next short of Reset, the failure
stands, a Step at that state would fail the same way, and only timers and keys may differ; Reset leaves the failed
condition (the spec's decisions D10, D29; entries 4 and 10). -/
def Obligations.FailureStandsUntilReset : Prop :=
  ∀ (m : Instance) (f : Fault) (ops : List HostOp), m.failure = none → step m.state = .fault f →
    (∀ op ∈ ops, ∀ c, op ≠ .reset c) →
    m.issue .step = (⟨m.state, some f⟩, .err f) ∧
    (∀ u, u = (m.issue .step).1.run ops → u.failure = some f ∧ step u.state = .fault f ∧
      u.state = { m.state with dt := u.state.dt, st := u.state.st, key := u.state.key } ∧
      ∀ c, u.issue (.reset c) = (⟨u.state.resetBy c, none⟩, .done))

/-- R94, with the model's own end-of-run predicate (decision D33, entry 15): a run is at its end exactly when no failure is
recorded, the engine is ready and the opcode at `PC` is 1NNN with `NNN = PC`. A Step there reports `Ready` and changes
nothing, and whatever the host does but Reset and Load the run stays at its end, only timers and keys may differ. -/
def Obligations.EndOfRunIsAnIdleSelfJump : Prop :=
  (∀ m : Instance, m.ended = true ↔ m.failure = none ∧ m.state.status = .ready ∧ m.state.pc.toNat ≤ 0x0FFE ∧
    (fetched m.state).toNat = 0x1000 + m.state.pc.toNat) ∧
  ∀ (m : Instance) (ops : List HostOp), m.ended = true → (∀ op ∈ ops, (∀ c, op ≠ .reset c) ∧ ∀ bytes, op ≠ .load bytes) →
    m.issue .step = (m, .ok .ready) ∧ (m.run ops).ended = true ∧
    (m.run ops).state =
      { m.state with dt := (m.run ops).state.dt, st := (m.run ops).state.st, key := (m.run ops).state.key } ∧
    ((∀ op ∈ ops, op = .step) → m.run ops = m)

end
end

