-- ==== Sys2Proof/Laws/Decode.lean ====
section
/-! SUPPORT. The fields of an encoded opcode, and an opcode put together from its fields. -/

namespace Sys2Proof

/-! ## The fields of the three encoding shapes -/

theorem append_toNat {w v : Nat} (a : BitVec w) (b : BitVec v) : (a ++ b).toNat = a.toNat * 2 ^ v + b.toNat := by
  rw [BitVec.toNat_append, Nat.shiftLeft_eq, ← Nat.shiftLeft_eq, ← Nat.shiftLeft_add_eq_or_of_lt b.isLt]

theorem opFamily_toNat (op : Word) : (opFamily op).toNat = op.toNat / 4096 := by
  have := op.isLt
  simp only [opFamily, BitVec.extractLsb'_toNat, Nat.shiftRight_eq_div_pow]
  omega

theorem opX_toNat (op : Word) : (opX op).toNat = op.toNat / 256 % 16 := by
  simp only [opX, BitVec.extractLsb'_toNat, Nat.shiftRight_eq_div_pow]

theorem opY_toNat (op : Word) : (opY op).toNat = op.toNat / 16 % 16 := by
  simp only [opY, BitVec.extractLsb'_toNat, Nat.shiftRight_eq_div_pow]

theorem opN_toNat (op : Word) : (opN op).toNat = op.toNat % 16 := by
  simp only [opN, BitVec.extractLsb'_toNat, Nat.shiftRight_zero]

theorem opNN_toNat (op : Word) : (opNN op).toNat = op.toNat % 256 := by
  simp only [opNN, BitVec.extractLsb'_toNat, Nat.shiftRight_zero]

theorem opNNN_toNat (op : Word) : (opNNN op).toNat = op.toNat % 4096 := by
  simp only [opNNN, BitVec.extractLsb'_toNat, Nat.shiftRight_zero]

theorem encNNN_toNat (m : Nibble) (a : Addr12) : (encNNN m a).toNat = m.toNat * 4096 + a.toNat := by
  unfold encNNN
  exact append_toNat m a

theorem encXNN_toNat (m x : Nibble) (b : Byte) : (encXNN m x b).toNat = m.toNat * 4096 + x.toNat * 256 + b.toNat := by
  unfold encXNN
  rw [append_toNat, append_toNat]
  omega

theorem encXYN_toNat (m x y n : Nibble) :
    (encXYN m x y n).toNat = m.toNat * 4096 + x.toNat * 256 + y.toNat * 16 + n.toNat := by
  unfold encXYN
  rw [append_toNat, append_toNat, append_toNat]
  omega

@[simp] theorem opFamily_encNNN (m : Nibble) (a : Addr12) : opFamily (encNNN m a) = m := by
  have := a.isLt
  apply BitVec.eq_of_toNat_eq
  rw [opFamily_toNat, encNNN_toNat]
  omega

@[simp] theorem opNNN_encNNN (m : Nibble) (a : Addr12) : opNNN (encNNN m a) = a := by
  have := a.isLt
  apply BitVec.eq_of_toNat_eq
  rw [opNNN_toNat, encNNN_toNat]
  omega

@[simp] theorem opFamily_encXNN (m x : Nibble) (b : Byte) : opFamily (encXNN m x b) = m := by
  have := x.isLt
  have := b.isLt
  apply BitVec.eq_of_toNat_eq
  rw [opFamily_toNat, encXNN_toNat]
  omega

@[simp] theorem opX_encXNN (m x : Nibble) (b : Byte) : opX (encXNN m x b) = x := by
  have := x.isLt
  have := b.isLt
  apply BitVec.eq_of_toNat_eq
  rw [opX_toNat, encXNN_toNat]
  omega

@[simp] theorem opNN_encXNN (m x : Nibble) (b : Byte) : opNN (encXNN m x b) = b := by
  have := b.isLt
  apply BitVec.eq_of_toNat_eq
  rw [opNN_toNat, encXNN_toNat]
  omega

@[simp] theorem opFamily_encXYN (m x y n : Nibble) : opFamily (encXYN m x y n) = m := by
  have := x.isLt
  have := y.isLt
  have := n.isLt
  apply BitVec.eq_of_toNat_eq
  rw [opFamily_toNat, encXYN_toNat]
  omega

@[simp] theorem opX_encXYN (m x y n : Nibble) : opX (encXYN m x y n) = x := by
  have := x.isLt
  have := y.isLt
  have := n.isLt
  apply BitVec.eq_of_toNat_eq
  rw [opX_toNat, encXYN_toNat]
  omega

@[simp] theorem opY_encXYN (m x y n : Nibble) : opY (encXYN m x y n) = y := by
  have := y.isLt
  have := n.isLt
  apply BitVec.eq_of_toNat_eq
  rw [opY_toNat, encXYN_toNat]
  omega

@[simp] theorem opN_encXYN (m x y n : Nibble) : opN (encXYN m x y n) = n := by
  have := n.isLt
  apply BitVec.eq_of_toNat_eq
  rw [opN_toNat, encXYN_toNat]
  omega

/-! ## An opcode is its fields -/

theorem encNNN_fields (op : Word) : encNNN (opFamily op) (opNNN op) = op := by
  apply BitVec.eq_of_toNat_eq
  rw [encNNN_toNat, opFamily_toNat, opNNN_toNat]
  omega

theorem encXNN_fields (op : Word) : encXNN (opFamily op) (opX op) (opNN op) = op := by
  apply BitVec.eq_of_toNat_eq
  rw [encXNN_toNat, opFamily_toNat, opX_toNat, opNN_toNat]
  omega

theorem encXYN_fields (op : Word) : encXYN (opFamily op) (opX op) (opY op) (opN op) = op := by
  apply BitVec.eq_of_toNat_eq
  rw [encXYN_toNat, opFamily_toNat, opX_toNat, opY_toNat, opN_toNat]
  omega

/-- The bytes of an instruction, joined again, are its opcode (R45). -/
theorem wordOfBytes_split (op : Word) : wordOfBytes (op.extractLsb' 8 8) (op.extractLsb' 0 8) = op := by
  have := op.isLt
  apply BitVec.eq_of_toNat_eq
  unfold wordOfBytes
  rw [append_toNat]
  simp only [BitVec.extractLsb'_toNat, Nat.shiftRight_eq_div_pow]
  omega

/-! ## Fields compared by value -/

theorem opN_eq_iff (op : Word) (k : Nibble) : opN op = k ↔ op.toNat % 16 = k.toNat := by
  rw [← BitVec.toNat_inj, opN_toNat]

theorem opNN_eq_iff (op : Word) (k : Byte) : opNN op = k ↔ op.toNat % 256 = k.toNat := by
  rw [← BitVec.toNat_inj, opNN_toNat]

theorem opFamily_eq_iff (op : Word) (k : Nibble) : opFamily op = k ↔ op.toNat / 4096 = k.toNat := by
  rw [← BitVec.toNat_inj, opFamily_toNat]

/-! ## Decode, family by family (R63) -/

theorem decodeWord_by_family (op : Word) : decodeWord op =
    match op.toNat / 4096 with
    | 0 => decode0 op
    | 1 => some (.jp (opNNN op))
    | 2 => some (.call (opNNN op))
    | 3 => some (.seImm (opX op) (opNN op))
    | 4 => some (.sneImm (opX op) (opNN op))
    | 5 => if opN op = 0#4 then some (.seReg (opX op) (opY op)) else none
    | 6 => some (.ldImm (opX op) (opNN op))
    | 7 => some (.addImm (opX op) (opNN op))
    | 8 => decode8 op
    | 9 => if opN op = 0#4 then some (.sneReg (opX op) (opY op)) else none
    | 10 => some (.ldI (opNNN op))
    | 11 => some (.jpV0 (opNNN op))
    | 12 => some (.rnd (opX op) (opNN op))
    | 13 => some (.drw (opX op) (opY op) (opN op))
    | 14 => decodeE op
    | _ => decodeF op := by
  rw [← opFamily_toNat]
  rfl

theorem family_lt (op : Word) : op.toNat / 4096 < 16 := by
  have := op.isLt
  omega

/-! ## The masks of R64 -/

theorem and_FFFF (op : Word) : op &&& 0xFFFF#16 = op := BitVec.and_allOnes

theorem and_F000 (op : Word) : op &&& 0xF000#16 = encNNN (opFamily op) 0 := by
  conv => lhs; rw [← encNNN_fields op]
  rw [show (0xF000#16 : Word) = 0xF#4 ++ 0x000#12 from rfl]
  unfold encNNN
  rw [BitVec.and_append]
  congr 1
  · exact BitVec.and_allOnes
  · exact BitVec.and_zero

theorem and_F0FF (op : Word) : op &&& 0xF0FF#16 = encXNN (opFamily op) 0 (opNN op) := by
  conv => lhs; rw [← encXNN_fields op]
  rw [show (0xF0FF#16 : Word) = 0xF#4 ++ (0x0#4 ++ 0xFF#8) from rfl]
  unfold encXNN
  rw [BitVec.and_append, BitVec.and_append]
  congr 1
  · exact BitVec.and_allOnes
  · congr 1
    · exact BitVec.and_zero
    · exact BitVec.and_allOnes

theorem and_F00F (op : Word) : op &&& 0xF00F#16 = encXYN (opFamily op) 0 0 (opN op) := by
  conv => lhs; rw [← encXYN_fields op]
  rw [show (0xF00F#16 : Word) = 0xF#4 ++ (0x0#4 ++ (0x0#4 ++ 0xF#4)) from rfl]
  unfold encXYN
  rw [BitVec.and_append, BitVec.and_append, BitVec.and_append]
  congr 1
  · exact BitVec.and_allOnes
  · congr 1
    · exact BitVec.and_zero
    · congr 1
      · exact BitVec.and_zero
      · exact BitVec.and_allOnes

/-! ## When an opcode has a row's pattern, by value -/

theorem matches_FFFF (op b : Word) : (OpcodeRow.matches ⟨0xFFFF, b⟩ op = true) ↔ op.toNat = b.toNat := by
  show (op &&& 0xFFFF#16 == b) = true ↔ _
  rw [beq_iff_eq, and_FFFF, BitVec.toNat_inj]

theorem matches_F000 (op b : Word) :
    (OpcodeRow.matches ⟨0xF000, b⟩ op = true) ↔ op.toNat / 4096 * 4096 = b.toNat := by
  show (op &&& 0xF000#16 == b) = true ↔ _
  rw [beq_iff_eq, and_F000, ← BitVec.toNat_inj, encNNN_toNat, opFamily_toNat]
  simp

theorem matches_F0FF (op b : Word) :
    (OpcodeRow.matches ⟨0xF0FF, b⟩ op = true) ↔ op.toNat / 4096 * 4096 + op.toNat % 256 = b.toNat := by
  show (op &&& 0xF0FF#16 == b) = true ↔ _
  rw [beq_iff_eq, and_F0FF, ← BitVec.toNat_inj, encXNN_toNat, opFamily_toNat, opNN_toNat]
  simp

theorem matches_F00F (op b : Word) :
    (OpcodeRow.matches ⟨0xF00F, b⟩ op = true) ↔ op.toNat / 4096 * 4096 + op.toNat % 16 = b.toNat := by
  show (op &&& 0xF00F#16 == b) = true ↔ _
  rw [beq_iff_eq, and_F00F, ← BitVec.toNat_inj, encXYN_toNat, opFamily_toNat, opN_toNat]
  simp

end Sys2Proof
end

