-- ==== Sys2Proof/Laws/State.lean ====
section
/-! SUPPORT. One lemma per field per update of State, each true by rfl, so that no later proof unfolds a record
update. -/

namespace Sys2Proof.Machine

variable (s : State)

@[simp] theorem State.writeV_v (r : Nibble) (b : Byte) : (s.writeV r b).v = s.v.set r.toNat b r.isLt := rfl
@[simp] theorem State.writeV_i (r : Nibble) (b : Byte) : (s.writeV r b).i = s.i := rfl
@[simp] theorem State.writeV_pc (r : Nibble) (b : Byte) : (s.writeV r b).pc = s.pc := rfl
@[simp] theorem State.writeV_stack (r : Nibble) (b : Byte) : (s.writeV r b).stack = s.stack := rfl
@[simp] theorem State.writeV_sp (r : Nibble) (b : Byte) : (s.writeV r b).sp = s.sp := rfl
@[simp] theorem State.writeV_dt (r : Nibble) (b : Byte) : (s.writeV r b).dt = s.dt := rfl
@[simp] theorem State.writeV_st (r : Nibble) (b : Byte) : (s.writeV r b).st = s.st := rfl
@[simp] theorem State.writeV_mem (r : Nibble) (b : Byte) : (s.writeV r b).mem = s.mem := rfl
@[simp] theorem State.writeV_fb (r : Nibble) (b : Byte) : (s.writeV r b).fb = s.fb := rfl
@[simp] theorem State.writeV_key (r : Nibble) (b : Byte) : (s.writeV r b).key = s.key := rfl
@[simp] theorem State.writeV_status (r : Nibble) (b : Byte) : (s.writeV r b).status = s.status := rfl
@[simp] theorem State.writeV_waitReg (r : Nibble) (b : Byte) : (s.writeV r b).waitReg = s.waitReg := rfl
@[simp] theorem State.writeV_cfg (r : Nibble) (b : Byte) : (s.writeV r b).cfg = s.cfg := rfl
@[simp] theorem State.writeV_randScript (r : Nibble) (b : Byte) : (s.writeV r b).randScript = s.randScript := rfl
@[simp] theorem State.writeV_randCount (r : Nibble) (b : Byte) : (s.writeV r b).randCount = s.randCount := rfl

@[simp] theorem State.writeFlagged_i (x : Nibble) (b f : Byte) : (s.writeFlagged x b f).i = s.i := rfl
@[simp] theorem State.writeFlagged_pc (x : Nibble) (b f : Byte) : (s.writeFlagged x b f).pc = s.pc := rfl
@[simp] theorem State.writeFlagged_stack (x : Nibble) (b f : Byte) : (s.writeFlagged x b f).stack = s.stack := rfl
@[simp] theorem State.writeFlagged_sp (x : Nibble) (b f : Byte) : (s.writeFlagged x b f).sp = s.sp := rfl
@[simp] theorem State.writeFlagged_dt (x : Nibble) (b f : Byte) : (s.writeFlagged x b f).dt = s.dt := rfl
@[simp] theorem State.writeFlagged_st (x : Nibble) (b f : Byte) : (s.writeFlagged x b f).st = s.st := rfl
@[simp] theorem State.writeFlagged_mem (x : Nibble) (b f : Byte) : (s.writeFlagged x b f).mem = s.mem := rfl
@[simp] theorem State.writeFlagged_fb (x : Nibble) (b f : Byte) : (s.writeFlagged x b f).fb = s.fb := rfl
@[simp] theorem State.writeFlagged_key (x : Nibble) (b f : Byte) : (s.writeFlagged x b f).key = s.key := rfl
@[simp] theorem State.writeFlagged_status (x : Nibble) (b f : Byte) : (s.writeFlagged x b f).status = s.status := rfl
@[simp] theorem State.writeFlagged_waitReg (x : Nibble) (b f : Byte) : (s.writeFlagged x b f).waitReg = s.waitReg := rfl
@[simp] theorem State.writeFlagged_cfg (x : Nibble) (b f : Byte) : (s.writeFlagged x b f).cfg = s.cfg := rfl
@[simp] theorem State.writeFlagged_randScript (x : Nibble) (b f : Byte) : (s.writeFlagged x b f).randScript = s.randScript := rfl
@[simp] theorem State.writeFlagged_randCount (x : Nibble) (b f : Byte) : (s.writeFlagged x b f).randCount = s.randCount := rfl

@[simp] theorem State.advance_v : s.advance.v = s.v := rfl
@[simp] theorem State.advance_i : s.advance.i = s.i := rfl
@[simp] theorem State.advance_pc : s.advance.pc = s.pc + 2 := rfl
@[simp] theorem State.advance_stack : s.advance.stack = s.stack := rfl
@[simp] theorem State.advance_sp : s.advance.sp = s.sp := rfl
@[simp] theorem State.advance_dt : s.advance.dt = s.dt := rfl
@[simp] theorem State.advance_st : s.advance.st = s.st := rfl
@[simp] theorem State.advance_mem : s.advance.mem = s.mem := rfl
@[simp] theorem State.advance_fb : s.advance.fb = s.fb := rfl
@[simp] theorem State.advance_key : s.advance.key = s.key := rfl
@[simp] theorem State.advance_status : s.advance.status = s.status := rfl
@[simp] theorem State.advance_waitReg : s.advance.waitReg = s.waitReg := rfl
@[simp] theorem State.advance_cfg : s.advance.cfg = s.cfg := rfl
@[simp] theorem State.advance_randScript : s.advance.randScript = s.randScript := rfl
@[simp] theorem State.advance_randCount : s.advance.randCount = s.randCount := rfl

@[simp] theorem State.jump_v (a : Word) : (s.jump a).v = s.v := rfl
@[simp] theorem State.jump_i (a : Word) : (s.jump a).i = s.i := rfl
@[simp] theorem State.jump_pc (a : Word) : (s.jump a).pc = a := rfl
@[simp] theorem State.jump_stack (a : Word) : (s.jump a).stack = s.stack := rfl
@[simp] theorem State.jump_sp (a : Word) : (s.jump a).sp = s.sp := rfl
@[simp] theorem State.jump_dt (a : Word) : (s.jump a).dt = s.dt := rfl
@[simp] theorem State.jump_st (a : Word) : (s.jump a).st = s.st := rfl
@[simp] theorem State.jump_mem (a : Word) : (s.jump a).mem = s.mem := rfl
@[simp] theorem State.jump_fb (a : Word) : (s.jump a).fb = s.fb := rfl
@[simp] theorem State.jump_key (a : Word) : (s.jump a).key = s.key := rfl
@[simp] theorem State.jump_status (a : Word) : (s.jump a).status = s.status := rfl
@[simp] theorem State.jump_waitReg (a : Word) : (s.jump a).waitReg = s.waitReg := rfl
@[simp] theorem State.jump_cfg (a : Word) : (s.jump a).cfg = s.cfg := rfl
@[simp] theorem State.jump_randScript (a : Word) : (s.jump a).randScript = s.randScript := rfl
@[simp] theorem State.jump_randCount (a : Word) : (s.jump a).randCount = s.randCount := rfl

@[simp] theorem State.skipIf_v (c : Bool) : (s.skipIf c).v = s.v := rfl
@[simp] theorem State.skipIf_i (c : Bool) : (s.skipIf c).i = s.i := rfl
@[simp] theorem State.skipIf_pc (c : Bool) : (s.skipIf c).pc = if c then s.pc + 4 else s.pc + 2 := rfl
@[simp] theorem State.skipIf_stack (c : Bool) : (s.skipIf c).stack = s.stack := rfl
@[simp] theorem State.skipIf_sp (c : Bool) : (s.skipIf c).sp = s.sp := rfl
@[simp] theorem State.skipIf_dt (c : Bool) : (s.skipIf c).dt = s.dt := rfl
@[simp] theorem State.skipIf_st (c : Bool) : (s.skipIf c).st = s.st := rfl
@[simp] theorem State.skipIf_mem (c : Bool) : (s.skipIf c).mem = s.mem := rfl
@[simp] theorem State.skipIf_fb (c : Bool) : (s.skipIf c).fb = s.fb := rfl
@[simp] theorem State.skipIf_key (c : Bool) : (s.skipIf c).key = s.key := rfl
@[simp] theorem State.skipIf_status (c : Bool) : (s.skipIf c).status = s.status := rfl
@[simp] theorem State.skipIf_waitReg (c : Bool) : (s.skipIf c).waitReg = s.waitReg := rfl
@[simp] theorem State.skipIf_cfg (c : Bool) : (s.skipIf c).cfg = s.cfg := rfl
@[simp] theorem State.skipIf_randScript (c : Bool) : (s.skipIf c).randScript = s.randScript := rfl
@[simp] theorem State.skipIf_randCount (c : Bool) : (s.skipIf c).randCount = s.randCount := rfl

@[simp] theorem State.writeMem_v (a : Nat) (b : Byte) : (s.writeMem a b).v = s.v := rfl
@[simp] theorem State.writeMem_i (a : Nat) (b : Byte) : (s.writeMem a b).i = s.i := rfl
@[simp] theorem State.writeMem_pc (a : Nat) (b : Byte) : (s.writeMem a b).pc = s.pc := rfl
@[simp] theorem State.writeMem_stack (a : Nat) (b : Byte) : (s.writeMem a b).stack = s.stack := rfl
@[simp] theorem State.writeMem_sp (a : Nat) (b : Byte) : (s.writeMem a b).sp = s.sp := rfl
@[simp] theorem State.writeMem_dt (a : Nat) (b : Byte) : (s.writeMem a b).dt = s.dt := rfl
@[simp] theorem State.writeMem_st (a : Nat) (b : Byte) : (s.writeMem a b).st = s.st := rfl
@[simp] theorem State.writeMem_mem (a : Nat) (b : Byte) : (s.writeMem a b).mem = s.mem.update s.cfg (a % memSize) b := rfl
@[simp] theorem State.writeMem_fb (a : Nat) (b : Byte) : (s.writeMem a b).fb = s.fb := rfl
@[simp] theorem State.writeMem_key (a : Nat) (b : Byte) : (s.writeMem a b).key = s.key := rfl
@[simp] theorem State.writeMem_status (a : Nat) (b : Byte) : (s.writeMem a b).status = s.status := rfl
@[simp] theorem State.writeMem_waitReg (a : Nat) (b : Byte) : (s.writeMem a b).waitReg = s.waitReg := rfl
@[simp] theorem State.writeMem_cfg (a : Nat) (b : Byte) : (s.writeMem a b).cfg = s.cfg := rfl
@[simp] theorem State.writeMem_randScript (a : Nat) (b : Byte) : (s.writeMem a b).randScript = s.randScript := rfl
@[simp] theorem State.writeMem_randCount (a : Nat) (b : Byte) : (s.writeMem a b).randCount = s.randCount := rfl

@[simp] theorem State.writeI_v (a : Word) : (s.writeI a).v = s.v := rfl
@[simp] theorem State.writeI_i (a : Word) : (s.writeI a).i = a := rfl
@[simp] theorem State.writeI_pc (a : Word) : (s.writeI a).pc = s.pc := rfl
@[simp] theorem State.writeI_stack (a : Word) : (s.writeI a).stack = s.stack := rfl
@[simp] theorem State.writeI_sp (a : Word) : (s.writeI a).sp = s.sp := rfl
@[simp] theorem State.writeI_dt (a : Word) : (s.writeI a).dt = s.dt := rfl
@[simp] theorem State.writeI_st (a : Word) : (s.writeI a).st = s.st := rfl
@[simp] theorem State.writeI_mem (a : Word) : (s.writeI a).mem = s.mem := rfl
@[simp] theorem State.writeI_fb (a : Word) : (s.writeI a).fb = s.fb := rfl
@[simp] theorem State.writeI_key (a : Word) : (s.writeI a).key = s.key := rfl
@[simp] theorem State.writeI_status (a : Word) : (s.writeI a).status = s.status := rfl
@[simp] theorem State.writeI_waitReg (a : Word) : (s.writeI a).waitReg = s.waitReg := rfl
@[simp] theorem State.writeI_cfg (a : Word) : (s.writeI a).cfg = s.cfg := rfl
@[simp] theorem State.writeI_randScript (a : Word) : (s.writeI a).randScript = s.randScript := rfl
@[simp] theorem State.writeI_randCount (a : Word) : (s.writeI a).randCount = s.randCount := rfl

@[simp] theorem State.takeRandom_v : s.takeRandom.v = s.v := rfl
@[simp] theorem State.takeRandom_i : s.takeRandom.i = s.i := rfl
@[simp] theorem State.takeRandom_pc : s.takeRandom.pc = s.pc := rfl
@[simp] theorem State.takeRandom_stack : s.takeRandom.stack = s.stack := rfl
@[simp] theorem State.takeRandom_sp : s.takeRandom.sp = s.sp := rfl
@[simp] theorem State.takeRandom_dt : s.takeRandom.dt = s.dt := rfl
@[simp] theorem State.takeRandom_st : s.takeRandom.st = s.st := rfl
@[simp] theorem State.takeRandom_mem : s.takeRandom.mem = s.mem := rfl
@[simp] theorem State.takeRandom_fb : s.takeRandom.fb = s.fb := rfl
@[simp] theorem State.takeRandom_key : s.takeRandom.key = s.key := rfl
@[simp] theorem State.takeRandom_status : s.takeRandom.status = s.status := rfl
@[simp] theorem State.takeRandom_waitReg : s.takeRandom.waitReg = s.waitReg := rfl
@[simp] theorem State.takeRandom_cfg : s.takeRandom.cfg = s.cfg := rfl
@[simp] theorem State.takeRandom_randScript : s.takeRandom.randScript = s.randScript.tail := rfl
@[simp] theorem State.takeRandom_randCount : s.takeRandom.randCount = s.randCount + 1 := rfl

@[simp] theorem State.tick_v : s.tick.v = s.v := rfl
@[simp] theorem State.tick_i : s.tick.i = s.i := rfl
@[simp] theorem State.tick_pc : s.tick.pc = s.pc := rfl
@[simp] theorem State.tick_stack : s.tick.stack = s.stack := rfl
@[simp] theorem State.tick_sp : s.tick.sp = s.sp := rfl
@[simp] theorem State.tick_dt : s.tick.dt = countDown s.dt := rfl
@[simp] theorem State.tick_st : s.tick.st = countDown s.st := rfl
@[simp] theorem State.tick_mem : s.tick.mem = s.mem := rfl
@[simp] theorem State.tick_fb : s.tick.fb = s.fb := rfl
@[simp] theorem State.tick_key : s.tick.key = s.key := rfl
@[simp] theorem State.tick_status : s.tick.status = s.status := rfl
@[simp] theorem State.tick_waitReg : s.tick.waitReg = s.waitReg := rfl
@[simp] theorem State.tick_cfg : s.tick.cfg = s.cfg := rfl
@[simp] theorem State.tick_randScript : s.tick.randScript = s.randScript := rfl
@[simp] theorem State.tick_randCount : s.tick.randCount = s.randCount := rfl

@[simp] theorem State.setKey_v (k : Nibble) (p : Bool) : (s.setKey k p).v = s.v := rfl
@[simp] theorem State.setKey_i (k : Nibble) (p : Bool) : (s.setKey k p).i = s.i := rfl
@[simp] theorem State.setKey_pc (k : Nibble) (p : Bool) : (s.setKey k p).pc = s.pc := rfl
@[simp] theorem State.setKey_stack (k : Nibble) (p : Bool) : (s.setKey k p).stack = s.stack := rfl
@[simp] theorem State.setKey_sp (k : Nibble) (p : Bool) : (s.setKey k p).sp = s.sp := rfl
@[simp] theorem State.setKey_dt (k : Nibble) (p : Bool) : (s.setKey k p).dt = s.dt := rfl
@[simp] theorem State.setKey_st (k : Nibble) (p : Bool) : (s.setKey k p).st = s.st := rfl
@[simp] theorem State.setKey_mem (k : Nibble) (p : Bool) : (s.setKey k p).mem = s.mem := rfl
@[simp] theorem State.setKey_fb (k : Nibble) (p : Bool) : (s.setKey k p).fb = s.fb := rfl
@[simp] theorem State.setKey_key (k : Nibble) (p : Bool) : (s.setKey k p).key = s.key.set k.toNat p k.isLt := rfl
@[simp] theorem State.setKey_status (k : Nibble) (p : Bool) : (s.setKey k p).status = s.status := rfl
@[simp] theorem State.setKey_waitReg (k : Nibble) (p : Bool) : (s.setKey k p).waitReg = s.waitReg := rfl
@[simp] theorem State.setKey_cfg (k : Nibble) (p : Bool) : (s.setKey k p).cfg = s.cfg := rfl
@[simp] theorem State.setKey_randScript (k : Nibble) (p : Bool) : (s.setKey k p).randScript = s.randScript := rfl
@[simp] theorem State.setKey_randCount (k : Nibble) (p : Bool) : (s.setKey k p).randCount = s.randCount := rfl

@[simp] theorem State.withRandom_v (bs : List Byte) : (s.withRandom bs).v = s.v := rfl
@[simp] theorem State.withRandom_i (bs : List Byte) : (s.withRandom bs).i = s.i := rfl
@[simp] theorem State.withRandom_pc (bs : List Byte) : (s.withRandom bs).pc = s.pc := rfl
@[simp] theorem State.withRandom_stack (bs : List Byte) : (s.withRandom bs).stack = s.stack := rfl
@[simp] theorem State.withRandom_sp (bs : List Byte) : (s.withRandom bs).sp = s.sp := rfl
@[simp] theorem State.withRandom_dt (bs : List Byte) : (s.withRandom bs).dt = s.dt := rfl
@[simp] theorem State.withRandom_st (bs : List Byte) : (s.withRandom bs).st = s.st := rfl
@[simp] theorem State.withRandom_mem (bs : List Byte) : (s.withRandom bs).mem = s.mem := rfl
@[simp] theorem State.withRandom_fb (bs : List Byte) : (s.withRandom bs).fb = s.fb := rfl
@[simp] theorem State.withRandom_key (bs : List Byte) : (s.withRandom bs).key = s.key := rfl
@[simp] theorem State.withRandom_status (bs : List Byte) : (s.withRandom bs).status = s.status := rfl
@[simp] theorem State.withRandom_waitReg (bs : List Byte) : (s.withRandom bs).waitReg = s.waitReg := rfl
@[simp] theorem State.withRandom_cfg (bs : List Byte) : (s.withRandom bs).cfg = s.cfg := rfl
@[simp] theorem State.withRandom_randScript (bs : List Byte) : (s.withRandom bs).randScript = bs := rfl
@[simp] theorem State.withRandom_randCount (bs : List Byte) : (s.withRandom bs).randCount = s.randCount := rfl

end Sys2Proof.Machine
end

