-- ==== Sys2Proof/Laws/Memory.lean ====
section
/-! SUPPORT. Memory: a read after a write, and that every memory operation keeps the canonical form. -/

namespace Sys2Proof.Machine

/-! ## Lookup after update -/

theorem Memory.lookup_insert (c : Config) (a k : Nat) (b : Byte) (m : Memory) :
    Memory.lookup c k (Memory.insert a b m) = if k = a then b else Memory.lookup c k m := by
  induction m with
  | nil =>
    by_cases h : k = a
    · simp [Memory.insert, Memory.lookup, h]
    · have h' : ¬ a = k := fun e => h e.symm
      simp [Memory.insert, Memory.lookup, h, h']
  | cons p m ih =>
    obtain ⟨j, d⟩ := p
    by_cases hk : k = a
    · subst hk
      by_cases h₁ : k < j
      · simp [Memory.insert, Memory.lookup, h₁]
      · by_cases h₂ : k = j
        · simp [Memory.insert, Memory.lookup, h₂]
        · have h₃ : ¬ j = k := fun h => h₂ h.symm
          simp [Memory.insert, Memory.lookup, h₁, h₂, h₃, ih]
    · have hk' : ¬ a = k := fun h => hk h.symm
      by_cases h₁ : a < j
      · simp [Memory.insert, Memory.lookup, h₁, hk, hk']
      · by_cases h₂ : a = j
        · subst h₂
          simp [Memory.insert, Memory.lookup, hk, hk']
        · simp [Memory.insert, Memory.lookup, h₁, h₂, ih, hk]

theorem Memory.lookup_erase (c : Config) (a k : Nat) (m : Memory) :
    Memory.lookup c k (Memory.erase a m) = if k = a then resetByte c a else Memory.lookup c k m := by
  induction m with
  | nil => by_cases h : k = a <;> simp [Memory.erase, Memory.lookup, h]
  | cons p m ih =>
    obtain ⟨j, d⟩ := p
    unfold Memory.erase at ih ⊢
    by_cases hj : j = a
    · subst hj
      by_cases hk : k = j
      · simpa [hk] using ih
      · have hk' : ¬ j = k := fun h => hk h.symm
        simpa [Memory.lookup, hk, hk'] using ih
    · by_cases hk : k = a
      · subst hk
        simpa [Memory.lookup, hj] using ih
      · by_cases hjk : j = k
        · simp [Memory.lookup, hk, hjk]
        · simpa [Memory.lookup, hj, hk, hjk] using ih

/-- Read after write, at one address or another: no hypothesis on the memory. -/
theorem Memory.lookup_update (c : Config) (a k : Nat) (b : Byte) (m : Memory) :
    Memory.lookup c k (Memory.update c a b m) = if k = a then b else Memory.lookup c k m := by
  unfold Memory.update
  split
  · rename_i h
    rw [Memory.lookup_erase, h]
  · exact Memory.lookup_insert c a k b m

/-! ## The canonical form -/

theorem Memory.wf_nil (c : Config) : Memory.wf c [] := by simp [Memory.wf]

theorem Memory.wf_erase {c : Config} {m : Memory} (a : Nat) (h : Memory.wf c m) :
    Memory.wf c (Memory.erase a m) :=
  ⟨h.1.filter _, fun p hp => h.2 p (List.mem_filter.mp hp).1⟩

theorem Memory.mem_insert {a : Nat} {b : Byte} {m : Memory} {p : Host.Cell} (h : p ∈ Memory.insert a b m) :
    p = (a, b) ∨ p ∈ m := by
  induction m with
  | nil => simpa [Memory.insert] using h
  | cons q m ih =>
    obtain ⟨j, d⟩ := q
    unfold Memory.insert at h
    split at h
    · simpa using h
    · split at h
      · rcases List.mem_cons.mp h with h | h
        · exact .inl h
        · exact .inr (List.mem_cons_of_mem _ h)
      · rcases List.mem_cons.mp h with h | h
        · exact .inr (by simp [h])
        · rcases ih h with h | h
          · exact .inl h
          · exact .inr (List.mem_cons_of_mem _ h)

theorem Memory.insert_pairwise {a : Nat} {b : Byte} {m : Memory} (h : m.Pairwise (fun p q => p.1 < q.1)) :
    (Memory.insert a b m).Pairwise (fun p q => p.1 < q.1) := by
  induction m with
  | nil => simp [Memory.insert]
  | cons q m ih =>
    obtain ⟨j, d⟩ := q
    obtain ⟨hq, hm⟩ := List.pairwise_cons.mp h
    unfold Memory.insert
    split
    · rename_i haj
      refine List.pairwise_cons.mpr ⟨fun p hp => ?_, h⟩
      rcases List.mem_cons.mp hp with rfl | hp
      · exact haj
      · exact Nat.lt_trans haj (hq p hp)
    · split
      · rename_i haj
        exact List.pairwise_cons.mpr ⟨fun p hp => haj ▸ hq p hp, hm⟩
      · refine List.pairwise_cons.mpr ⟨fun p hp => ?_, ih hm⟩
        rcases Memory.mem_insert hp with rfl | hp
        · show j < a
          omega
        · exact hq p hp

theorem Memory.wf_update {c : Config} {m : Memory} {a : Nat} (b : Byte) (ha : a < memSize) (h : Memory.wf c m) :
    Memory.wf c (Memory.update c a b m) := by
  unfold Memory.update
  split
  · exact Memory.wf_erase a h
  · rename_i hb
    refine ⟨Memory.insert_pairwise h.1, fun p hp => ?_⟩
    rcases Memory.mem_insert hp with rfl | hp
    · exact ⟨ha, hb⟩
    · exact h.2 p hp

/-! ## The state's byte accesses -/

/-- A read after a write of one byte: the address is compared after reduction modulo 4096 (R41). -/
theorem State.readMem_writeMem (s : State) (a k : Nat) (b : Byte) :
    (s.writeMem a b).readMem k = if k % memSize = a % memSize then b else s.readMem k :=
  Memory.lookup_update ..

/-- Reading depends on memory and configuration only. -/
theorem State.readMem_congr {s t : State} (hm : t.mem = s.mem) (hc : t.cfg = s.cfg) (a : Nat) :
    t.readMem a = s.readMem a := by
  unfold State.readMem
  rw [hm, hc]

theorem State.writeMem_keeps_wf {s : State} (a : Nat) (b : Byte) (h : Memory.wf s.cfg s.mem) :
    Memory.wf (s.writeMem a b).cfg (s.writeMem a b).mem :=
  Memory.wf_update b (Nat.mod_lt _ (by decide)) h

/-- Writing bytes changes memory and nothing else. -/
theorem State.writeBytes_eq (s : State) (base : Nat) (bs : List Byte) :
    s.writeBytes base bs = { s with mem := (s.writeBytes base bs).mem } := by
  induction bs generalizing s base with
  | nil => rfl
  | cons b bs ih => exact ih (s.writeMem base b) (base + 1)

theorem State.writeBytes_cfg (s : State) (base : Nat) (bs : List Byte) : (s.writeBytes base bs).cfg = s.cfg := by
  rw [State.writeBytes_eq]

theorem State.writeBytes_keeps_wf {s : State} (base : Nat) (bs : List Byte) (h : Memory.wf s.cfg s.mem) :
    Memory.wf (s.writeBytes base bs).cfg (s.writeBytes base bs).mem := by
  induction bs generalizing s base with
  | nil => exact h
  | cons b bs ih => exact ih (s := s.writeMem base b) (base + 1) (State.writeMem_keeps_wf base b h)

/-- A byte outside the written ones is unchanged. -/
theorem State.readMem_writeBytes_outside (s : State) (base : Nat) (bs : List Byte) (k : Nat)
    (h : ∀ j < bs.length, k % memSize ≠ (base + j) % memSize) : (s.writeBytes base bs).readMem k = s.readMem k := by
  induction bs generalizing s base with
  | nil => rfl
  | cons b bs ih =>
    have h0 : k % memSize ≠ base % memSize := by simpa using h 0 (by simp)
    have hr : ∀ j < bs.length, k % memSize ≠ (base + 1 + j) % memSize := fun j hj => by
      have := h (j + 1) (by simpa using hj)
      rwa [show base + (j + 1) = base + 1 + j by omega] at this
    show ((s.writeMem base b).writeBytes (base + 1) bs).readMem k = _
    rw [ih (s.writeMem base b) (base + 1) hr, State.readMem_writeMem, if_neg h0]

/-- A written byte reads back, where no more bytes are written than memory has. -/
theorem State.readMem_writeBytes_inside (s : State) (base : Nat) (bs : List Byte) (j : Nat) (hj : j < bs.length)
    (hlen : bs.length ≤ memSize) : (s.writeBytes base bs).readMem (base + j) = bs[j] := by
  induction bs generalizing s base j with
  | nil => simp at hj
  | cons b bs ih =>
    show ((s.writeMem base b).writeBytes (base + 1) bs).readMem _ = _
    cases j with
    | zero =>
      rw [State.readMem_writeBytes_outside, State.readMem_writeMem]
      · simp
      · intro k hk
        simp only [List.length_cons, memSize] at hk hlen ⊢
        omega
    | succ j =>
      rw [show base + (j + 1) = base + 1 + j by omega]
      simpa using ih (s.writeMem base b) (base + 1) j (by simpa using hj) (by simp at hlen; omega)

/-- Bytes read from ascending addresses, one by one. -/
theorem State.readBytes_length (s : State) (base n : Nat) : (s.readBytes base n).length = n := by
  induction n generalizing base with
  | zero => rfl
  | succ n ih => simp [State.readBytes, ih]

theorem State.readBytes_getElem (s : State) (base n j : Nat) (h : j < n) :
    (s.readBytes base n)[j]'(by rw [State.readBytes_length]; exact h) = s.readMem (base + j) := by
  induction n generalizing base j with
  | zero => omega
  | succ n ih =>
    cases j with
    | zero => rfl
    | succ j =>
      simp only [State.readBytes, List.getElem_cons_succ]
      rw [ih (base + 1) j (by omega)]
      congr 1
      omega

theorem State.readBytes_congr {s t : State} (hm : t.mem = s.mem) (hc : t.cfg = s.cfg) (base n : Nat) :
    t.readBytes base n = s.readBytes base n := by
  induction n generalizing base with
  | zero => rfl
  | succ n ih => simp only [State.readBytes, ih, State.readMem_congr hm hc]

end Sys2Proof.Machine
end

