-- ==== Sys2Proof/Laws/Ops.lean ====
section
/-! SUPPORT. One lemma per shared operation over registers, stack, keypad and fetch: everything it can do. -/

namespace Sys2Proof.Machine

/-! ## Registers -/

theorem nibble_toNat_inj {a b : Nibble} : a.toNat = b.toNat ↔ a = b := BitVec.toNat_inj

/-- Reading depends on the registers only. -/
theorem State.readV_congr {s t : State} (h : t.v = s.v) (r : Nibble) : t.readV r = s.readV r := by
  unfold State.readV
  simp only [h]

@[simp] theorem State.readV_writeV (s : State) (r k : Nibble) (b : Byte) :
    (s.writeV r b).readV k = if k = r then b else s.readV k := by
  unfold State.readV State.writeV
  simp only [Vector.getElem_set, nibble_toNat_inj, eq_comm]

@[simp] theorem State.readV_writeFlagged (s : State) (x k : Nibble) (b f : Byte) :
    (s.writeFlagged x b f).readV k = if k = vF then f else if k = x then b else s.readV k := by
  unfold State.writeFlagged
  rw [State.readV_writeV, State.readV_writeV]

@[simp] theorem State.readV_advance (s : State) (r : Nibble) : s.advance.readV r = s.readV r := rfl
@[simp] theorem State.readV_jump (s : State) (a : Word) (r : Nibble) : (s.jump a).readV r = s.readV r := rfl
@[simp] theorem State.readV_skipIf (s : State) (c : Bool) (r : Nibble) : (s.skipIf c).readV r = s.readV r := rfl
@[simp] theorem State.readV_writeMem (s : State) (a : Nat) (b : Byte) (r : Nibble) :
    (s.writeMem a b).readV r = s.readV r := rfl
@[simp] theorem State.readV_writeI (s : State) (a : Word) (r : Nibble) : (s.writeI a).readV r = s.readV r := rfl
@[simp] theorem State.readV_takeRandom (s : State) (r : Nibble) : s.takeRandom.readV r = s.readV r := rfl

@[simp] theorem State.readMem_writeV (s : State) (r : Nibble) (b : Byte) (a : Nat) :
    (s.writeV r b).readMem a = s.readMem a := rfl
@[simp] theorem State.readMem_advance (s : State) (a : Nat) : s.advance.readMem a = s.readMem a := rfl
@[simp] theorem State.readMem_writeI (s : State) (w : Word) (a : Nat) : (s.writeI w).readMem a = s.readMem a := rfl

/-! ## Stack -/

/-- Push on a stack that is not full. -/
theorem State.push_ok {s : State} (a : Word) (h : s.sp.val < 16) :
    s.push a = .ok { s with stack := s.stack.set s.sp.val a h, sp := ⟨s.sp.val + 1, by omega⟩ } := by
  unfold State.push
  rw [dif_pos h]

/-- Push on a full stack. -/
theorem State.push_full {s : State} (a : Word) (h : s.sp.val = 16) : s.push a = .error .stackOverflow := by
  unfold State.push
  rw [dif_neg (by omega)]

/-- Pop from a stack that is not empty. -/
theorem State.pop_ok {s : State} (h : 0 < s.sp.val) :
    s.pop = .ok (s.stack[s.sp.val - 1]'(by omega), { s with sp := ⟨s.sp.val - 1, by omega⟩ }) := by
  unfold State.pop
  rw [dif_pos h]

/-- Pop from an empty stack. -/
theorem State.pop_empty {s : State} (h : s.sp.val = 0) : s.pop = .error .stackUnderflow := by
  unfold State.pop
  rw [dif_neg (by omega)]

/-- Everything a push can do. -/
theorem State.push_cases (s : State) (a : Word) :
    (∃ h : s.sp.val < 16, s.push a =
      .ok { s with stack := s.stack.set s.sp.val a h, sp := ⟨s.sp.val + 1, by omega⟩ }) ∨
    (s.sp.val = 16 ∧ s.push a = .error .stackOverflow) := by
  by_cases h : s.sp.val < 16
  · exact .inl ⟨h, State.push_ok a h⟩
  · have h16 : s.sp.val = 16 := by omega
    exact .inr ⟨h16, State.push_full a h16⟩

/-- Everything a pop can do. -/
theorem State.pop_cases (s : State) :
    (∃ h : 0 < s.sp.val, s.pop =
      .ok (s.stack[s.sp.val - 1]'(by omega), { s with sp := ⟨s.sp.val - 1, by omega⟩ })) ∨
    (s.sp.val = 0 ∧ s.pop = .error .stackUnderflow) := by
  by_cases h : 0 < s.sp.val
  · exact .inl ⟨h, State.pop_ok h⟩
  · have h0 : s.sp.val = 0 := by omega
    exact .inr ⟨h0, State.pop_empty h0⟩

/-! ## Keypad -/

@[simp] theorem State.isPressed_setKey (s : State) (k j : Nibble) (p : Bool) :
    (s.setKey k p).isPressed j = if j = k then p else s.isPressed j := by
  unfold State.isPressed State.setKey
  simp only [Vector.getElem_set, nibble_toNat_inj, eq_comm]

theorem mem_keyCodes (k : Nibble) : k ∈ keyCodes := by
  revert k
  decide

theorem keyCodes_ascending : keyCodes.Pairwise (fun a b => a.toNat < b.toNat) := by decide

/-- No key is found exactly when none is pressed. -/
theorem State.lowestKey_eq_none {s : State} : s.lowestKey = none ↔ ∀ k, s.isPressed k = false := by
  unfold State.lowestKey
  rw [List.find?_eq_none]
  exact ⟨fun h k => by simpa using h k (mem_keyCodes k), fun h k _ => by simp [h k]⟩

/-- The key found is the least pressed one (R83, R162). -/
theorem State.lowestKey_eq_some {s : State} {k : Nibble} :
    s.lowestKey = some k ↔ s.isPressed k = true ∧ ∀ j : Nibble, j.toNat < k.toNat → s.isPressed j = false := by
  unfold State.lowestKey
  constructor
  · intro h
    obtain ⟨hk, as, bs, hl, hn⟩ := List.find?_eq_some_iff_append.mp h
    refine ⟨hk, fun j hj => ?_⟩
    have hmem := mem_keyCodes j
    have hasc := keyCodes_ascending
    rw [hl] at hmem hasc
    rcases List.mem_append.mp hmem with hm | hm
    · simpa using hn j hm
    · have hkb := (List.pairwise_append.mp hasc).2.1
      rcases List.mem_cons.mp hm with rfl | hm
      · omega
      · have := (List.pairwise_cons.mp hkb).1 j hm
        omega
  · rintro ⟨hk, hmin⟩
    rcases hfind : keyCodes.find? s.isPressed with _ | j
    · have := List.find?_eq_none.mp hfind k (mem_keyCodes k)
      simp [hk] at this
    · obtain ⟨hj, as, bs, hl, hn⟩ := List.find?_eq_some_iff_append.mp hfind
      have hmem := mem_keyCodes k
      have hasc := keyCodes_ascending
      rw [hl] at hmem hasc
      rcases List.mem_append.mp hmem with hm | hm
      · simpa [hk] using hn k hm
      · rcases List.mem_cons.mp hm with rfl | hm
        · rfl
        · have hlt := (List.pairwise_cons.mp (List.pairwise_append.mp hasc).2.1).1 k hm
          have hjt := hmin j hlt
          simp [hj] at hjt

/-! ## Fetch -/

theorem State.fetch_ok {s : State} (h : s.pc.toNat ≤ lastFetchAddr) : s.fetch = .ok (s.opcodeAt s.pc.toNat) := by
  unfold State.fetch
  rw [if_neg (by omega)]

theorem State.fetch_out {s : State} (h : lastFetchAddr < s.pc.toNat) :
    s.fetch = .error (.outOfBoundsAccess s.pc.toNat) := by
  unfold State.fetch
  rw [if_pos h]

/-- An opcode depends on memory and configuration only. -/
theorem State.opcodeAt_congr {s t : State} (hm : t.mem = s.mem) (hc : t.cfg = s.cfg) (a : Nat) :
    t.opcodeAt a = s.opcodeAt a := by
  unfold State.opcodeAt
  rw [State.readMem_congr hm hc, State.readMem_congr hm hc]

/-! ## The register loops -/

/-- The store loop changes memory only. -/
theorem State.storeRegs_eq (s : State) (base n : Nat) :
    s.storeRegs base n = { s with mem := (s.storeRegs base n).mem } := by
  induction n with
  | zero => rfl
  | succ n ih =>
    show (s.storeRegs base n).writeMem (base + n) _ = _
    conv => lhs; rw [ih]
    rw [State.storeRegs]
    conv => rhs; rw [ih]
    rfl

theorem State.storeRegs_cfg (s : State) (base n : Nat) : (s.storeRegs base n).cfg = s.cfg := by
  rw [State.storeRegs_eq]

theorem State.storeRegs_keeps_wf {s : State} (base n : Nat) (h : Memory.wf s.cfg s.mem) :
    Memory.wf (s.storeRegs base n).cfg (s.storeRegs base n).mem := by
  induction n with
  | zero => exact h
  | succ n ih => exact State.writeMem_keeps_wf _ _ ih

/-- What the store loop leaves at an address: the register whose byte goes there, or what was there. -/
theorem State.readMem_storeRegs_outside (s : State) (base n k : Nat)
    (h : ∀ j < n, k % memSize ≠ (base + j) % memSize) : (s.storeRegs base n).readMem k = s.readMem k := by
  induction n with
  | zero => rfl
  | succ n ih =>
    show ((s.storeRegs base n).writeMem _ _).readMem k = _
    rw [State.readMem_writeMem, if_neg (h n (by omega)), ih (fun j hj => h j (by omega))]

theorem State.readMem_storeRegs_inside (s : State) (base n j : Nat) (hj : j < n) (hn : n ≤ 16) :
    (s.storeRegs base n).readMem (base + j) = s.readV (BitVec.ofNat 4 j) := by
  induction n with
  | zero => omega
  | succ n ih =>
    show ((s.storeRegs base n).writeMem _ _).readMem _ = _
    rw [State.readMem_writeMem]
    split
    · rename_i heq
      have : j = n := by
        simp only [memSize] at heq
        omega
      rw [this]
    · rename_i hne
      have hjn : j ≠ n := fun h => hne (by rw [h])
      exact ih (by omega) (by omega)

/-- The load loop changes registers only. -/
theorem State.loadRegs_eq (s : State) (base n : Nat) :
    s.loadRegs base n = { s with v := (s.loadRegs base n).v } := by
  induction n with
  | zero => rfl
  | succ n ih =>
    show (s.loadRegs base n).writeV _ _ = _
    conv => lhs; rw [ih]
    rw [State.loadRegs]
    conv => rhs; rw [ih]
    rfl

/-- What the load loop leaves in a register. -/
theorem State.readV_loadRegs (s : State) (base n : Nat) (hn : n ≤ 16) (r : Nibble) :
    (s.loadRegs base n).readV r = if r.toNat < n then s.readMem (base + r.toNat) else s.readV r := by
  induction n with
  | zero => rfl
  | succ n ih =>
    show ((s.loadRegs base n).writeV _ _).readV r = _
    have hr := r.isLt
    have hiff : r = BitVec.ofNat 4 n ↔ r.toNat = n := by
      rw [← BitVec.toNat_inj, BitVec.toNat_ofNat]
      omega
    rw [State.readV_writeV, ih (by omega)]
    by_cases h : r.toNat = n
    · rw [if_pos (hiff.mpr h), if_pos (by omega), h]
    · rw [if_neg (fun e => h (hiff.mp e))]
      by_cases h' : r.toNat < n
      · rw [if_pos h', if_pos (by omega)]
      · rw [if_neg h', if_neg (by omega)]

end Sys2Proof.Machine
end

