-- ==== Sys2Proof/Laws/Display.lean ====
section
/-! SUPPORT. The draw loops of 44_display.md R152 in closed form: which pixel each bit falls on, and the collision. -/

namespace Sys2Proof.Machine

/-! ## One pixel -/

theorem Framebuffer.pixel_toggle (fb : Framebuffer) (x px : Fin 64) (y py : Fin 32) :
    (fb.toggle x y).pixel px py = (fb.pixel px py ^^ (decide (px = x) && decide (py = y))) := by
  unfold Framebuffer.toggle Framebuffer.pixel
  by_cases hy : py = y
  · subst hy
    by_cases hx : px = x
    · subst hx
      simp
    · have : x.val ≠ px.val := fun h => hx (Fin.ext h.symm)
      simp [this, hx]
  · have : y.val ≠ py.val := fun h => hy (Fin.ext h.symm)
    simp [this, hy]

@[simp] theorem Framebuffer.pixel_blank (px : Fin 64) (py : Fin 32) : Framebuffer.blank.pixel px py = false := by
  simp [Framebuffer.blank, Framebuffer.pixel]

/-- Two grids with the same pixels are equal. -/
theorem Framebuffer.ext_pixel {f g : Framebuffer} (h : ∀ px py, f.pixel px py = g.pixel px py) : f = g := by
  apply Vector.ext
  intro y hy
  apply Vector.ext
  intro x hx
  exact h ⟨x, hx⟩ ⟨y, hy⟩

theorem Drawing.pixel_plot (d : Drawing) (x px : Fin 64) (y py : Fin 32) (bit : Bool) :
    (d.plot x y bit).fb.pixel px py = (d.fb.pixel px py ^^ (bit && (decide (px = x) && decide (py = y)))) := by
  unfold Drawing.plot
  cases bit
  · simp
  · simp [Framebuffer.pixel_toggle]

theorem Drawing.collision_plot (d : Drawing) (x : Fin 64) (y : Fin 32) (bit : Bool) :
    (d.plot x y bit).collision = (d.collision || (bit && d.fb.pixel x y)) := by
  unfold Drawing.plot
  cases bit <;> simp

/-! ## One row -/

/-- How far right of column `x0` a pixel stands, around the grid. -/
def columnFrom (x0 : Nat) (px : Fin 64) : Nat := (px.val + (64 - x0 % 64)) % 64

/-- How far below row `y0` a pixel stands, around the grid. -/
def rowFrom (y0 : Nat) (py : Fin 32) : Nat := (py.val + (32 - y0 % 32)) % 32

/-- Whether one of the first `n` bits of a sprite row at column `x0` is a 1 bit on column `px`. -/
def rowCovers (x0 : Nat) (byte : Byte) (n : Nat) (px : Fin 64) : Bool :=
  decide (columnFrom x0 px < n) && byte.getLsbD (7 - columnFrom x0 px)

theorem columnFrom_eq_iff {x0 n : Nat} (hn : n < 64) (px : Fin 64) :
    px = wrapX (x0 + n) ↔ columnFrom x0 px = n := by
  have := px.isLt
  rw [Fin.ext_iff]
  simp only [wrapX, columnFrom]
  omega

theorem rowFrom_eq_zero_iff (y0 : Nat) (py : Fin 32) : py = wrapY y0 ↔ rowFrom y0 py = 0 := by
  have := py.isLt
  rw [Fin.ext_iff]
  simp only [wrapY, rowFrom]
  omega

theorem rowFrom_succ {y0 : Nat} {py : Fin 32} (h : rowFrom y0 py ≠ 0) : rowFrom (y0 + 1) py = rowFrom y0 py - 1 := by
  have := py.isLt
  simp only [rowFrom] at h ⊢
  omega

theorem rowFrom_succ_of_zero {y0 : Nat} {py : Fin 32} (h : rowFrom y0 py = 0) : rowFrom (y0 + 1) py = 31 := by
  have := py.isLt
  simp only [rowFrom] at h ⊢
  omega

theorem rowCovers_succ {x0 n : Nat} (hn : n < 64) (byte : Byte) (px : Fin 64) :
    rowCovers x0 byte (n + 1) px =
      (rowCovers x0 byte n px ^^ (byte.getLsbD (7 - n) && decide (px = wrapX (x0 + n)))) := by
  unfold rowCovers
  simp only [columnFrom_eq_iff hn px]
  by_cases h : columnFrom x0 px = n
  · simp [h]
  · have h' : columnFrom x0 px < n + 1 ↔ columnFrom x0 px < n := by omega
    simp [h, h']

/-- The pixels after the first `n` bits of a row. -/
theorem Drawing.pixel_row (d : Drawing) (x0 : Nat) (y : Fin 32) (byte : Byte) (n : Nat) (hn : n ≤ 64)
    (px : Fin 64) (py : Fin 32) : (d.row x0 y byte n).fb.pixel px py =
      (d.fb.pixel px py ^^ (decide (py = y) && rowCovers x0 byte n px)) := by
  induction n with
  | zero => simp [Drawing.row, rowCovers]
  | succ n ih =>
    rw [Drawing.row, Drawing.pixel_plot, ih (by omega), rowCovers_succ (by omega)]
    by_cases hy : py = y <;> simp [hy]

/-- The collision after the first `n` bits of a row: some covered pixel of the row was set. -/
theorem Drawing.collision_row (d : Drawing) (x0 : Nat) (y : Fin 32) (byte : Byte) (n : Nat) (hn : n ≤ 64) :
    (d.row x0 y byte n).collision = true ↔
      d.collision = true ∨ ∃ px, rowCovers x0 byte n px = true ∧ d.fb.pixel px y = true := by
  induction n with
  | zero => simp [Drawing.row, rowCovers]
  | succ n ih =>
    have hcol : columnFrom x0 (wrapX (x0 + n)) = n := (columnFrom_eq_iff (by omega) _).mp rfl
    rw [Drawing.row, Drawing.collision_plot, Bool.or_eq_true, ih (by omega), Bool.and_eq_true,
      Drawing.pixel_row d x0 y byte n (by omega)]
    have hun : rowCovers x0 byte n (wrapX (x0 + n)) = false := by simp [rowCovers, hcol]
    rw [hun, Bool.and_false, Bool.xor_false]
    constructor
    · rintro ((h | ⟨px, hc, hp⟩) | ⟨hb, hp⟩)
      · exact .inl h
      · refine .inr ⟨px, ?_, hp⟩
        simp only [rowCovers, Bool.and_eq_true, decide_eq_true_eq] at hc ⊢
        exact ⟨by omega, hc.2⟩
      · refine .inr ⟨_, ?_, hp⟩
        simp [rowCovers, hcol, hb]
    · rintro (h | ⟨px, hc, hp⟩)
      · exact .inl (.inl h)
      · simp only [rowCovers, Bool.and_eq_true, decide_eq_true_eq] at hc
        by_cases he : columnFrom x0 px = n
        · have hpx := (columnFrom_eq_iff (by omega) px).mpr he
          subst hpx
          rw [he] at hc
          exact .inr ⟨hc.2, hp⟩
        · refine .inl (.inr ⟨px, ?_, hp⟩)
          simp only [rowCovers, Bool.and_eq_true, decide_eq_true_eq]
          exact ⟨by omega, hc.2⟩

/-! ## The whole sprite -/

/-- Whether a sprite at (`x0`, `y0`) has a 1 bit on pixel (`px`, `py`). -/
def covers (x0 y0 : Nat) (rows : List Byte) (px : Fin 64) (py : Fin 32) : Bool :=
  match rows[rowFrom y0 py]? with
  | some byte => rowCovers x0 byte 8 px
  | none => false

theorem covers_cons {x0 y0 : Nat} {byte : Byte} {rows : List Byte} (px : Fin 64) (py : Fin 32) :
    covers x0 y0 (byte :: rows) px py =
      if py = wrapY y0 then rowCovers x0 byte 8 px else covers x0 (y0 + 1) rows px py := by
  unfold covers
  by_cases hz : rowFrom y0 py = 0
  · rw [if_pos ((rowFrom_eq_zero_iff y0 py).mpr hz), hz]
    rfl
  · rw [if_neg (fun e => hz ((rowFrom_eq_zero_iff y0 py).mp e)), rowFrom_succ hz]
    obtain ⟨k, hk⟩ := Nat.exists_eq_succ_of_ne_zero hz
    simp [hk]

theorem covers_above {x0 y0 : Nat} {rows : List Byte} (h : rows.length ≤ 31) (px : Fin 64) :
    covers x0 (y0 + 1) rows px (wrapY y0) = false := by
  unfold covers
  rw [rowFrom_succ_of_zero ((rowFrom_eq_zero_iff y0 _).mp rfl), List.getElem?_eq_none h]

/-- `DrawSprite` in closed form, the pixels: each is inverted exactly when a 1 bit falls on it. -/
theorem Drawing.pixel_sprite (d : Drawing) (x0 y0 : Nat) (rows : List Byte) (h : rows.length ≤ 32)
    (px : Fin 64) (py : Fin 32) :
    (d.sprite x0 y0 rows).fb.pixel px py = (d.fb.pixel px py ^^ covers x0 y0 rows px py) := by
  induction rows generalizing d y0 with
  | nil => simp [Drawing.sprite, covers]
  | cons byte rows ih =>
    have hlen : rows.length ≤ 31 := by simp only [List.length_cons] at h; omega
    rw [Drawing.sprite, ih _ _ (by omega), Drawing.pixel_row _ _ _ _ _ (by omega), covers_cons]
    by_cases hy : py = wrapY y0
    · rw [if_pos hy, hy, covers_above hlen]
      simp
    · simp [hy]

/-- `DrawSprite` in closed form, the collision: some covered pixel was set. -/
theorem Drawing.collision_sprite (d : Drawing) (x0 y0 : Nat) (rows : List Byte) (h : rows.length ≤ 32) :
    (d.sprite x0 y0 rows).collision = true ↔
      d.collision = true ∨ ∃ px py, covers x0 y0 rows px py = true ∧ d.fb.pixel px py = true := by
  induction rows generalizing d y0 with
  | nil => simp [Drawing.sprite, covers]
  | cons byte rows ih =>
    have hlen : rows.length ≤ 31 := by simp only [List.length_cons] at h; omega
    rw [Drawing.sprite, ih _ _ (by omega), Drawing.collision_row _ _ _ _ _ (by omega)]
    constructor
    · rintro ((hc | ⟨px, hcov, hp⟩) | ⟨px, py, hcov, hp⟩)
      · exact .inl hc
      · exact .inr ⟨px, wrapY y0, by rw [covers_cons, if_pos rfl]; exact hcov, hp⟩
      · have hy : py ≠ wrapY y0 := by
          rintro rfl
          rw [covers_above hlen] at hcov
          simp at hcov
        rw [Drawing.pixel_row _ _ _ _ _ (by omega)] at hp
        exact .inr ⟨px, py, by rw [covers_cons, if_neg hy]; exact hcov, by simpa [hy] using hp⟩
    · rintro (hc | ⟨px, py, hcov, hp⟩)
      · exact .inl (.inl hc)
      · rw [covers_cons] at hcov
        by_cases hy : py = wrapY y0
        · rw [if_pos hy] at hcov
          exact .inl (.inr ⟨px, hcov, hy ▸ hp⟩)
        · rw [if_neg hy] at hcov
          refine .inr ⟨px, py, hcov, ?_⟩
          rw [Drawing.pixel_row _ _ _ _ _ (by omega)]
          simpa [hy] using hp

end Sys2Proof.Machine
end

