-- ==== Sys2Proof/Laws/PerInstr.lean ====
section
/-! SUPPORT. Statements about every instruction as syntax, one lemma per constructor. -/

namespace Sys2Proof.Laws.RowMatch

/-- The encoded instruction has the pattern of its row of R64. -/
def Statement (i : Instr) : Prop := i.row.matches (encode i) = true

/-! ## The formats of R61 -/

theorem formatNNN {m : Nibble} {bits : Word} (a : Addr12) (h : bits = encNNN m 0) :
    OpcodeRow.matches ⟨0xF000, bits⟩ (encNNN m a) = true := by
  show (encNNN m a &&& 0xF000#16 == bits) = true
  rw [and_F000, opFamily_encNNN, h, beq_self_eq_true]

theorem formatXNN {m : Nibble} {bits : Word} (x : Nibble) (b : Byte) (h : bits = encNNN m 0) :
    OpcodeRow.matches ⟨0xF000, bits⟩ (encXNN m x b) = true := by
  show (encXNN m x b &&& 0xF000#16 == bits) = true
  rw [and_F000, opFamily_encXNN, h, beq_self_eq_true]

theorem formatXYN {m : Nibble} {bits : Word} (x y n : Nibble) (h : bits = encNNN m 0) :
    OpcodeRow.matches ⟨0xF000, bits⟩ (encXYN m x y n) = true := by
  show (encXYN m x y n &&& 0xF000#16 == bits) = true
  rw [and_F000, opFamily_encXYN, h, beq_self_eq_true]

theorem formatXY {m n : Nibble} {bits : Word} (x y : Nibble) (h : bits = encXYN m 0 0 n) :
    OpcodeRow.matches ⟨0xF00F, bits⟩ (encXYN m x y n) = true := by
  show (encXYN m x y n &&& 0xF00F#16 == bits) = true
  rw [and_F00F, opFamily_encXYN, opN_encXYN, h, beq_self_eq_true]

theorem formatX {m : Nibble} {b : Byte} {bits : Word} (x : Nibble) (h : bits = encXNN m 0 b) :
    OpcodeRow.matches ⟨0xF0FF, bits⟩ (encXNN m x b) = true := by
  show (encXNN m x b &&& 0xF0FF#16 == bits) = true
  rw [and_F0FF, opFamily_encXNN, opNN_encXNN, h, beq_self_eq_true]

/-! ## One lemma per instruction -/

theorem cls : Statement .cls := rfl
theorem ret : Statement .ret := rfl
theorem sys (nnn : Addr12) : Statement (.sys nnn) := formatNNN nnn (by decide)
theorem jp (nnn : Addr12) : Statement (.jp nnn) := formatNNN nnn (by decide)
theorem call (nnn : Addr12) : Statement (.call nnn) := formatNNN nnn (by decide)
theorem seImm (x : Nibble) (nn : Byte) : Statement (.seImm x nn) := formatXNN x nn (by decide)
theorem sneImm (x : Nibble) (nn : Byte) : Statement (.sneImm x nn) := formatXNN x nn (by decide)
theorem seReg (x y : Nibble) : Statement (.seReg x y) := formatXY x y (by decide)
theorem ldImm (x : Nibble) (nn : Byte) : Statement (.ldImm x nn) := formatXNN x nn (by decide)
theorem addImm (x : Nibble) (nn : Byte) : Statement (.addImm x nn) := formatXNN x nn (by decide)
theorem ldReg (x y : Nibble) : Statement (.ldReg x y) := formatXY x y (by decide)
theorem orReg (x y : Nibble) : Statement (.orReg x y) := formatXY x y (by decide)
theorem andReg (x y : Nibble) : Statement (.andReg x y) := formatXY x y (by decide)
theorem xorReg (x y : Nibble) : Statement (.xorReg x y) := formatXY x y (by decide)
theorem addReg (x y : Nibble) : Statement (.addReg x y) := formatXY x y (by decide)
theorem subReg (x y : Nibble) : Statement (.subReg x y) := formatXY x y (by decide)
theorem shr (x y : Nibble) : Statement (.shr x y) := formatXY x y (by decide)
theorem subn (x y : Nibble) : Statement (.subn x y) := formatXY x y (by decide)
theorem shl (x y : Nibble) : Statement (.shl x y) := formatXY x y (by decide)
theorem sneReg (x y : Nibble) : Statement (.sneReg x y) := formatXY x y (by decide)
theorem ldI (nnn : Addr12) : Statement (.ldI nnn) := formatNNN nnn (by decide)
theorem jpV0 (nnn : Addr12) : Statement (.jpV0 nnn) := formatNNN nnn (by decide)
theorem rnd (x : Nibble) (nn : Byte) : Statement (.rnd x nn) := formatXNN x nn (by decide)
theorem drw (x y n : Nibble) : Statement (.drw x y n) := formatXYN x y n (by decide)
theorem skp (x : Nibble) : Statement (.skp x) := formatX x (by decide)
theorem sknp (x : Nibble) : Statement (.sknp x) := formatX x (by decide)
theorem ldVxDt (x : Nibble) : Statement (.ldVxDt x) := formatX x (by decide)
theorem ldVxK (x : Nibble) : Statement (.ldVxK x) := formatX x (by decide)
theorem ldDtVx (x : Nibble) : Statement (.ldDtVx x) := formatX x (by decide)
theorem ldStVx (x : Nibble) : Statement (.ldStVx x) := formatX x (by decide)
theorem addI (x : Nibble) : Statement (.addI x) := formatX x (by decide)
theorem ldF (x : Nibble) : Statement (.ldF x) := formatX x (by decide)
theorem ldB (x : Nibble) : Statement (.ldB x) := formatX x (by decide)
theorem stRegs (x : Nibble) : Statement (.stRegs x) := formatX x (by decide)
theorem ldRegs (x : Nibble) : Statement (.ldRegs x) := formatX x (by decide)

end Sys2Proof.Laws.RowMatch
end

