-- ==== Sys2Proof/Laws/Step.lean ====
section
/-! SUPPORT. What a Step can do, said once: the cases of `step`, of the key wait, and of every instruction's failure. -/

namespace Sys2Proof.Machine

/-! ## The Step -/

theorem step_awaiting {s : State} (h : s.status = .awaitingInput) : step s = pollKey s := by
  unfold step
  rw [h]

theorem step_ready {s : State} (h : s.status = .ready) : step s =
    if lastFetchAddr < s.pc.toNat then .fault (.outOfBoundsAccess s.pc.toNat)
    else match decodeWord (s.opcodeAt s.pc.toNat) with
      | some i => exec i s
      | none => .fault (.unknownInstruction (s.opcodeAt s.pc.toNat)) := by
  unfold step State.fetch raise
  rw [h]
  cases hd : decodeWord (s.opcodeAt s.pc.toNat) <;> by_cases hp : lastFetchAddr < s.pc.toNat <;> simp [hp, hd]

/-- Everything a successful Step can be: a poll of the keys, or one instruction fetched at a legal `PC`. -/
theorem step_cases {s t : State} (h : step s = .next t) :
    (s.status = .awaitingInput ∧ pollKey s = .next t) ∨
    (s.status = .ready ∧ s.pc.toNat ≤ lastFetchAddr ∧
      ∃ i, decodeWord (s.opcodeAt s.pc.toNat) = some i ∧ exec i s = .next t) := by
  cases hs : s.status with
  | awaitingInput => exact .inl ⟨rfl, by rw [← step_awaiting hs]; exact h⟩
  | ready =>
    rw [step_ready hs] at h
    split at h
    · cases h
    · rename_i hp
      split at h
      · rename_i i hi
        exact .inr ⟨rfl, by omega, i, hi, h⟩
      · cases h

/-! ## The end of a run -/

theorem State.atSelfJump_iff {s : State} : s.atSelfJump = true ↔ s.status = .ready ∧ s.pc.toNat ≤ lastFetchAddr ∧
    decodeWord (s.opcodeAt s.pc.toNat) = some (.jp (s.pc.setWidth 12)) := by
  simp [State.atSelfJump, and_assoc]

/-- Being at a jump to itself depends on status, `PC`, memory and configuration only. -/
theorem State.atSelfJump_congr {s t : State} (hs : t.status = s.status) (hp : t.pc = s.pc) (hm : t.mem = s.mem)
    (hc : t.cfg = s.cfg) : t.atSelfJump = s.atSelfJump := by
  simp only [State.atSelfJump, hs, hp, State.opcodeAt_congr hm hc]

/-- A fetchable address survives the 12 bits of `NNN`. -/
theorem zextAddr_setWidth {a : Word} (h : a.toNat ≤ lastFetchAddr) : zextAddr (a.setWidth 12) = a := by
  apply BitVec.eq_of_toNat_eq
  simp only [lastFetchAddr] at h
  simp only [zextAddr, BitVec.toNat_setWidth]
  omega

/-- A Step at a jump to itself changes nothing (R94, R102). -/
theorem step_atSelfJump {s : State} (h : s.atSelfJump = true) : step s = .next s := by
  obtain ⟨hs, hp, hd⟩ := State.atSelfJump_iff.mp h
  rw [step_ready hs, if_neg (Nat.not_lt.mpr hp), hd]
  show Host.Outcome.next (s.jump (zextAddr (s.pc.setWidth 12))) = .next s
  rw [zextAddr_setWidth hp]
  rfl

/-! ## The key wait -/

/-- Everything a poll of the keys can do: it never fails. -/
theorem pollKey_cases (s : State) :
    (∃ k, s.lowestKey = some k ∧
      pollKey s = .next { (s.writeV s.waitReg (keyByte k)).advance with status := .ready }) ∨
    (s.lowestKey = none ∧ pollKey s = .next s) := by
  unfold pollKey
  cases s.lowestKey with
  | some k => exact .inl ⟨k, rfl, rfl⟩
  | none => exact .inr ⟨rfl, rfl⟩

/-- Everything FX0A can do: it never fails. -/
theorem execLdVxK_cases (x : Nibble) (s : State) :
    (∃ k, s.lowestKey = some k ∧ execLdVxK x s = .next (s.writeV x (keyByte k)).advance) ∨
    (s.lowestKey = none ∧ execLdVxK x s = .next { s with waitReg := x, status := .awaitingInput }) := by
  unfold execLdVxK
  cases s.lowestKey with
  | some k => exact .inl ⟨k, rfl, rfl⟩
  | none => exact .inr ⟨rfl, rfl⟩

/-! ## The three instructions that can fail -/

theorem execCall_cases (nnn : Addr12) (s : State) :
    (∃ h : s.sp.val < 16, execCall nnn s = .next (State.jump
      { s with stack := s.stack.set s.sp.val (s.pc + 2) h, sp := ⟨s.sp.val + 1, by omega⟩ } (zextAddr nnn))) ∨
    (s.sp.val = 16 ∧ execCall nnn s = .fault .stackOverflow) := by
  unfold execCall raise
  rcases s.push_cases (s.pc + 2) with ⟨h, hp⟩ | ⟨h, hp⟩
  · exact .inl ⟨h, by rw [hp]⟩
  · exact .inr ⟨h, by rw [hp]⟩

theorem execRet_cases (s : State) :
    (∃ h : 0 < s.sp.val, execRet s = .next (State.jump
      { s with sp := ⟨s.sp.val - 1, by omega⟩ } (s.stack[s.sp.val - 1]'(by omega)))) ∨
    (s.sp.val = 0 ∧ execRet s = .fault .stackUnderflow) := by
  unfold execRet raise
  rcases s.pop_cases with ⟨h, hp⟩ | ⟨h, hp⟩
  · exact .inl ⟨h, by rw [hp]⟩
  · exact .inr ⟨h, by rw [hp]⟩

theorem execSys_cases (nnn : Addr12) (s : State) :
    (s.cfg.sysIsNop = true ∧ execSys nnn s = .next s.advance) ∨
    (s.cfg.sysIsNop = false ∧ execSys nnn s = .fault (.unknownInstruction (zextAddr nnn))) := by
  unfold execSys raise
  cases h : s.cfg.sysIsNop
  · exact .inr ⟨rfl, rfl⟩
  · exact .inl ⟨rfl, rfl⟩

/-! ## What every instruction leaves alone -/

/-- No instruction writes a key or the configuration (R10, R30). -/
theorem exec_keeps_key_cfg {i : Instr} {s t : State} (h : exec i s = .next t) : t.key = s.key ∧ t.cfg = s.cfg := by
  cases i
  case sys nnn =>
    rcases execSys_cases nnn s with ⟨-, e⟩ | ⟨-, e⟩ <;> rw [exec, e] at h <;> cases h
    exact ⟨rfl, rfl⟩
  case ret =>
    rcases execRet_cases s with ⟨_, e⟩ | ⟨-, e⟩ <;> rw [exec, e] at h <;> cases h
    exact ⟨rfl, rfl⟩
  case call nnn =>
    rcases execCall_cases nnn s with ⟨_, e⟩ | ⟨-, e⟩ <;> rw [exec, e] at h <;> cases h
    exact ⟨rfl, rfl⟩
  case ldVxK x =>
    rcases execLdVxK_cases x s with ⟨k, -, e⟩ | ⟨-, e⟩ <;> rw [exec, e] at h <;> cases h <;> exact ⟨rfl, rfl⟩
  case ldB x =>
    cases h
    simp only [State.advance_key, State.advance_cfg]
    rw [State.writeBytes_eq]
    exact ⟨rfl, rfl⟩
  case stRegs x =>
    cases h
    simp only [State.advance_key, State.advance_cfg, State.writeI_key, State.writeI_cfg]
    rw [State.storeRegs_eq]
    exact ⟨rfl, rfl⟩
  case ldRegs x =>
    cases h
    simp only [State.advance_key, State.advance_cfg, State.writeI_key, State.writeI_cfg]
    rw [State.loadRegs_eq]
    exact ⟨rfl, rfl⟩
  all_goals
    cases h
    exact ⟨rfl, rfl⟩

/-! ## What an instruction can do to memory, the stack and the status -/

/-- Every instruction keeps memory in its canonical form. -/
theorem exec_keeps_memOk {i : Instr} {s t : State} (hm : s.memOk) (h : exec i s = .next t) : t.memOk := by
  cases i
  case sys nnn =>
    rcases execSys_cases nnn s with ⟨-, e⟩ | ⟨-, e⟩ <;> rw [exec, e] at h <;> cases h
    exact hm
  case ret =>
    rcases execRet_cases s with ⟨_, e⟩ | ⟨_, e⟩ <;> rw [exec, e] at h <;> cases h
    exact hm
  case call nnn =>
    rcases execCall_cases nnn s with ⟨_, e⟩ | ⟨_, e⟩ <;> rw [exec, e] at h <;> cases h
    exact hm
  case ldVxK x =>
    rcases execLdVxK_cases x s with ⟨_, -, e⟩ | ⟨-, e⟩ <;> rw [exec, e] at h <;> cases h
    · exact hm
    · exact hm
  case ldB x => cases h; exact State.writeBytes_keeps_wf _ _ hm
  case stRegs x => cases h; exact State.storeRegs_keeps_wf _ _ hm
  case ldRegs x =>
    cases h
    rw [State.loadRegs_eq]
    exact hm
  all_goals (cases h; exact hm)

/-- Everything an instruction can do to the stack: nothing above the entries in use, or one push of `pc0 + 2`. -/
theorem exec_stack_cases {i : Instr} {s t : State} (h : exec i s = .next t) :
    (t.stack = s.stack ∧ t.sp.val ≤ s.sp.val) ∨
    ∃ hs : s.sp.val < 16, t.stack = s.stack.set s.sp.val (s.pc + 2) hs ∧ t.sp.val = s.sp.val + 1 := by
  cases i
  case sys nnn =>
    rcases execSys_cases nnn s with ⟨-, e⟩ | ⟨-, e⟩ <;> rw [exec, e] at h <;> cases h
    exact .inl ⟨rfl, Nat.le_refl _⟩
  case ret =>
    rcases execRet_cases s with ⟨_, e⟩ | ⟨_, e⟩ <;> rw [exec, e] at h <;> cases h
    exact .inl ⟨rfl, by simp⟩
  case call nnn =>
    rcases execCall_cases nnn s with ⟨hs, e⟩ | ⟨_, e⟩ <;> rw [exec, e] at h <;> cases h
    exact .inr ⟨hs, rfl, rfl⟩
  case ldVxK x =>
    rcases execLdVxK_cases x s with ⟨_, -, e⟩ | ⟨-, e⟩ <;> rw [exec, e] at h <;> cases h
    · exact .inl ⟨rfl, Nat.le_refl _⟩
    · exact .inl ⟨rfl, Nat.le_refl _⟩
  case ldB x =>
    cases h
    rw [State.writeBytes_eq]
    exact .inl ⟨rfl, Nat.le_refl _⟩
  case stRegs x =>
    cases h
    rw [State.storeRegs_eq]
    exact .inl ⟨rfl, Nat.le_refl _⟩
  case ldRegs x =>
    cases h
    rw [State.loadRegs_eq]
    exact .inl ⟨rfl, Nat.le_refl _⟩
  all_goals (cases h; exact .inl ⟨rfl, Nat.le_refl _⟩)

/-- Only FX0A, finding no key, leaves a ready engine awaiting one. -/
theorem exec_awaits_only_at_key {i : Instr} {s t : State} (hs : s.status = .ready) (h : exec i s = .next t)
    (ha : t.status = .awaitingInput) :
    ∃ x, i = .ldVxK x ∧ t = { s with waitReg := x, status := .awaitingInput } := by
  cases i
  case sys nnn =>
    rcases execSys_cases nnn s with ⟨-, e⟩ | ⟨-, e⟩ <;> rw [exec, e] at h <;> cases h
    exact absurd (hs.symm.trans ha) (by simp)
  case ret =>
    rcases execRet_cases s with ⟨_, e⟩ | ⟨_, e⟩ <;> rw [exec, e] at h <;> cases h
    exact absurd (hs.symm.trans ha) (by simp)
  case call nnn =>
    rcases execCall_cases nnn s with ⟨_, e⟩ | ⟨_, e⟩ <;> rw [exec, e] at h <;> cases h
    exact absurd (hs.symm.trans ha) (by simp)
  case ldVxK x =>
    rcases execLdVxK_cases x s with ⟨_, -, e⟩ | ⟨-, e⟩ <;> rw [exec, e] at h <;> cases h
    · exact absurd (hs.symm.trans ha) (by simp)
    · exact ⟨x, rfl, rfl⟩
  case ldB x =>
    cases h
    rw [State.writeBytes_eq] at ha
    exact absurd (hs.symm.trans ha) (by simp)
  case stRegs x =>
    cases h
    rw [State.storeRegs_eq] at ha
    exact absurd (hs.symm.trans ha) (by simp)
  case ldRegs x =>
    cases h
    rw [State.loadRegs_eq] at ha
    exact absurd (hs.symm.trans ha) (by simp)
  all_goals (cases h; exact absurd (hs.symm.trans ha) (by simp))

end Sys2Proof.Machine
end

