-- ==== Sys2Proof/Tests/Slice0.lean ====
section
/-! SUPPORT. The model's own tests. Expected results are the spec's (30_encoding.md R64; the vectors of 95_test_vectors.md, by
their ids); each vector test is one Step. The last part shows, for each obligation with hypotheses, that they can be met. -/

namespace Sys2Proof.Tests

open Sys2Proof.Machine Sys2Proof.Statements

/-! ## Helpers -/

/-- What a view of the next state shows, if there is a next state. -/
def after {α : Type} (o : Result) (f : State → α) : Option α :=
  match o with
  | .next t => some (f t)
  | .fault _ => none
  | .refused _ => none

/-- The failure, if there is one. -/
def faultOf (o : Result) : Option Fault :=
  match o with
  | .next _ => none
  | .fault f => some f
  | .refused _ => none

/-- Registers set one after another. -/
def withRegs (s : State) : List (Nibble × Byte) → State
  | [] => s
  | (r, b) :: l => withRegs (s.writeV r b) l

/-- Pixels set, by column and row. -/
def withPixels (s : State) : List (Fin 64 × Fin 32) → State
  | [] => s
  | (x, y) :: l => withPixels { s with fb := s.fb.toggle x y } l

/-- The set pixels of one row, by column. -/
def rowOf (s : State) (y : Fin 32) : List (Fin 64) := (List.finRange 64).filter fun x => s.getPixel x y

/-- The reset state with these registers. -/
def regs (l : List (Nibble × Byte)) : State := withRegs State.reset l

/-- One Step of the state with this opcode at `PC`. -/
def run1 (op : Nat) (s : State) : Result := step (s.withFetchWord 16 op)

/-- The reset state with the other setting of the three switches. -/
def otherQuirks : State := State.resetWith ⟨false, false, 0, true⟩

/-! ## Well-formedness (R65) -/

/-- 0x00E0 is CLS, not a SYS. -/
theorem test_wf_sys_0E0 : (Instr.sys 0x0E0#12).wf = false := by decide
/-- 0x00EE is RET, not a SYS. -/
theorem test_wf_sys_0EE : (Instr.sys 0x0EE#12).wf = false := by decide
theorem test_wf_sys_other : (Instr.sys 0x0E1#12).wf = true ∧ (Instr.sys 0x000#12).wf = true := by decide

/-! ## Decoding: every constructor by a word written out from R64 -/

theorem test_decode_0 : decodeWord 0x00E0#16 = some .cls ∧ decodeWord 0x00EE#16 = some .ret ∧
    decodeWord 0x00E1#16 = some (.sys 0x0E1#12) := by decide
theorem test_decode_jumps : decodeWord 0x1ABC#16 = some (.jp 0xABC#12) ∧
    decodeWord 0x2ABC#16 = some (.call 0xABC#12) ∧ decodeWord 0xBABC#16 = some (.jpV0 0xABC#12) := by decide
theorem test_decode_skips : decodeWord 0x3A7C#16 = some (.seImm 0xA#4 0x7C#8) ∧
    decodeWord 0x4A7C#16 = some (.sneImm 0xA#4 0x7C#8) ∧ decodeWord 0x5AB0#16 = some (.seReg 0xA#4 0xB#4) ∧
    decodeWord 0x9AB0#16 = some (.sneReg 0xA#4 0xB#4) := by decide
theorem test_decode_immediates : decodeWord 0x6A7C#16 = some (.ldImm 0xA#4 0x7C#8) ∧
    decodeWord 0x7A7C#16 = some (.addImm 0xA#4 0x7C#8) ∧ decodeWord 0xCA7C#16 = some (.rnd 0xA#4 0x7C#8) := by decide
theorem test_decode_8_logic : decodeWord 0x8AB0#16 = some (.ldReg 0xA#4 0xB#4) ∧
    decodeWord 0x8AB1#16 = some (.orReg 0xA#4 0xB#4) ∧ decodeWord 0x8AB2#16 = some (.andReg 0xA#4 0xB#4) ∧
    decodeWord 0x8AB3#16 = some (.xorReg 0xA#4 0xB#4) := by decide
theorem test_decode_8_flags : decodeWord 0x8AB4#16 = some (.addReg 0xA#4 0xB#4) ∧
    decodeWord 0x8AB5#16 = some (.subReg 0xA#4 0xB#4) ∧ decodeWord 0x8AB6#16 = some (.shr 0xA#4 0xB#4) ∧
    decodeWord 0x8AB7#16 = some (.subn 0xA#4 0xB#4) ∧ decodeWord 0x8ABE#16 = some (.shl 0xA#4 0xB#4) := by decide
theorem test_decode_index_draw : decodeWord 0xAABC#16 = some (.ldI 0xABC#12) ∧
    decodeWord 0xDABC#16 = some (.drw 0xA#4 0xB#4 0xC#4) := by decide
theorem test_decode_E : decodeWord 0xEA9E#16 = some (.skp 0xA#4) ∧ decodeWord 0xEAA1#16 = some (.sknp 0xA#4) := by decide
theorem test_decode_F_timers : decodeWord 0xFA07#16 = some (.ldVxDt 0xA#4) ∧
    decodeWord 0xFA0A#16 = some (.ldVxK 0xA#4) ∧ decodeWord 0xFA15#16 = some (.ldDtVx 0xA#4) ∧
    decodeWord 0xFA18#16 = some (.ldStVx 0xA#4) := by decide
theorem test_decode_F_index : decodeWord 0xFA1E#16 = some (.addI 0xA#4) ∧ decodeWord 0xFA29#16 = some (.ldF 0xA#4) ∧
    decodeWord 0xFA33#16 = some (.ldB 0xA#4) ∧ decodeWord 0xFA55#16 = some (.stRegs 0xA#4) ∧
    decodeWord 0xFA65#16 = some (.ldRegs 0xA#4) := by decide
/-- Bytes: the high byte first (R45), the rest handed back, one byte is no opcode. -/
theorem test_decode_bytes : decode [0x12#8, 0x28#8, 0x99#8] = .ok (.jp 0x228#12, [0x99#8]) ∧
    decode [0xF3#8, 0x08#8] = .error (.unknownOpcode 0xF308#16) ∧ decode [0x12#8] = .error .truncated := by decide
theorem test_decode_table_word : decodeTableWord 16 0x8126 = some (.shr 0x1#4 0x2#4) ∧
    decodeTableWord 16 0xE59F = none := by decide

/-! ## Control transfer (T) -/

/-- T1. -/
theorem test_ret : after (run1 0x00EE { State.reset with pc := 0x20C, sp := 1, stack := State.reset.stack.set 0 0x206 })
    (fun t => (t.pc, t.sp)) = some (0x206#16, 0) := by decide
/-- T2. -/
theorem test_ret_empty : faultOf (run1 0x00EE State.reset) = some .stackUnderflow := by decide
/-- T3. -/
theorem test_jp : after (run1 0x1228 State.reset) (fun t => t.pc) = some 0x228#16 := by decide
/-- T6, both bytes at the end of memory. -/
theorem test_fetch_out : faultOf (step { State.reset with pc := 0xFFF }) = some (.outOfBoundsAccess 0xFFF) := by decide
/-- T9. -/
theorem test_call : after (run1 0x2300 { State.reset with pc := 0xFFE })
    (fun t => (t.pc, t.sp, t.stack[0])) = some (0x300#16, 1, 0x1000#16) := by decide
/-- T8. -/
theorem test_call_full : faultOf (run1 0x2208 { State.reset with sp := 16 }) = some .stackOverflow := by decide
/-- T11. -/
theorem test_jp_v0 : after (run1 0xBFFF (regs [(0, 0xFF)])) (fun t => t.pc) = some 0x10FE#16 := by decide
/-- T12. -/
theorem test_jp_v0_not_vx : after (run1 0xB300 (regs [(0, 2), (3, 0x40)])) (fun t => t.pc) = some 0x302#16 := by decide
/-- T14, T15. -/
theorem test_se_imm : after (run1 0x3101 { State.reset with pc := 0x208 }) (fun t => t.pc) = some 0x20A#16 ∧
    after (run1 0x3000 { State.reset with pc := 0xFFC }) (fun t => t.pc) = some 0x1000#16 := by decide
/-- T16, T17. -/
theorem test_sne_imm : after (run1 0x4205 (regs [(2, 5)])) (fun t => t.pc) = some 0x202#16 ∧
    after (run1 0x4206 (regs [(2, 5)])) (fun t => t.pc) = some 0x204#16 := by decide
/-- T18 with operands that differ elsewhere, T20. -/
theorem test_se_reg : after (run1 0x5340 (regs [(3, 0x7F), (4, 0x7F)])) (fun t => t.pc) = some 0x204#16 ∧
    faultOf (run1 0x5341 State.reset) = some (.unknownInstruction 0x5341) := by decide
/-- T21, T22. -/
theorem test_sne_reg : after (run1 0x9340 (regs [(3, 1), (4, 2)])) (fun t => t.pc) = some 0x204#16 ∧
    after (run1 0x9330 (regs [(3, 0x12)])) (fun t => t.pc) = some 0x202#16 := by decide
/-- T24, T25. -/
theorem test_sys : faultOf (run1 0x0123 State.reset) = some (.unknownInstruction 0x0123) ∧
    after (run1 0x0123 otherQuirks) (fun t => t.pc) = some 0x202#16 := by decide

/-! ## Arithmetic (A) -/

/-- A1. -/
theorem test_ld_imm : after (run1 0x6A05 State.reset) (fun t => (t.readV 0xA, t.pc)) = some (5#8, 0x202#16) := by decide
/-- A4. -/
theorem test_add_imm : after (run1 0x7A01 (regs [(0xA, 0xFF), (0xF, 1)])) (fun t => (t.readV 0xA, t.readV 0xF)) =
    some (0#8, 1#8) := by decide
/-- A7. -/
theorem test_ld_reg : after (run1 0x8120 (regs [(2, 0x3C)])) (fun t => t.readV 1) = some 0x3C#8 := by decide
/-- A8, A9, A10. -/
theorem test_or_and_xor : after (run1 0x8121 (regs [(1, 0xF0), (2, 0x0F), (0xF, 1)])) (fun t => (t.readV 1, t.readV 0xF)) =
      some (0xFF#8, 1#8) ∧
    after (run1 0x8122 (regs [(1, 0xF0), (2, 0x3C)])) (fun t => t.readV 1) = some 0x30#8 ∧
    after (run1 0x8123 (regs [(1, 0xF0), (2, 0x3C)])) (fun t => t.readV 1) = some 0xCC#8 := by decide
/-- A12, A15: an old flag is cleared, and the flag wins where `X` is F. -/
theorem test_add_reg : after (run1 0x8014 (regs [(0, 0x0A), (1, 5), (0xF, 1)])) (fun t => (t.readV 0, t.readV 0xF)) =
      some (0x0F#8, 0#8) ∧
    after (run1 0x8F14 (regs [(0xF, 0xF0), (1, 0x20)])) (fun t => t.readV 0xF) = some 1#8 := by decide
/-- A18, A20. -/
theorem test_sub_reg : after (run1 0x8015 (regs [(0, 5), (1, 0x0A)])) (fun t => (t.readV 0, t.readV 0xF)) =
      some (0xFB#8, 0#8) ∧
    after (run1 0x8015 (regs [(0, 0x33), (1, 0x33)])) (fun t => (t.readV 0, t.readV 0xF)) = some (0#8, 1#8) := by decide
/-- A23, A24. -/
theorem test_subn : after (run1 0x8017 (regs [(0, 5), (1, 0x0A)])) (fun t => (t.readV 0, t.readV 0xF)) = some (5#8, 1#8) ∧
    after (run1 0x8017 (regs [(0, 0x0A), (1, 5), (0xF, 1)])) (fun t => (t.readV 0, t.readV 0xF)) =
      some (0xFB#8, 0#8) := by decide
/-- A26, A27. -/
theorem test_shr : after (run1 0x8126 (regs [(1, 5), (2, 0x82)])) (fun t => (t.readV 1, t.readV 2, t.readV 0xF)) =
      some (0x41#8, 0x82#8, 0#8) ∧
    after (run1 0x8126 (withRegs otherQuirks [(1, 5), (2, 0x82)])) (fun t => (t.readV 1, t.readV 2, t.readV 0xF)) =
      some (2#8, 0x82#8, 1#8) := by decide
/-- A30, A31. -/
theorem test_shl : after (run1 0x812E (regs [(1, 5), (2, 0x82)])) (fun t => (t.readV 1, t.readV 2, t.readV 0xF)) =
      some (4#8, 0x82#8, 1#8) ∧
    after (run1 0x812E (withRegs otherQuirks [(1, 5), (2, 0x82)])) (fun t => (t.readV 1, t.readV 2, t.readV 0xF)) =
      some (0x0A#8, 0x82#8, 0#8) := by decide
/-- A36. -/
theorem test_rnd : after (run1 0xC30F (State.reset.withRandom [0xA7])) (fun t => (t.readV 3, t.randScript)) =
    some (7#8, []) := by decide

/-! ## Index register and memory (M) -/

/-- M2. -/
theorem test_ld_i : after (run1 0xAFFF State.reset) (fun t => t.i) = some 0xFFF#16 := by decide
/-- M4, M5. -/
theorem test_add_i : after (run1 0xF21E { regs [(2, 1)] with i := 0xFFF }) (fun t => (t.i, t.readV 0xF)) =
      some (0x1000#16, 0#8) ∧
    after (run1 0xF21E { regs [(2, 1)] with i := 0xFFFF }) (fun t => t.i) = some 0#16 := by decide
/-- M7, M8. -/
theorem test_ld_f : after (run1 0xF029 (regs [(0, 0x1A)])) (fun t => t.i) = some 0x82#16 ∧
    after (run1 0xF029 (withRegs otherQuirks [(0, 0x0F)])) (fun t => t.i) = some 0x4B#16 := by decide
/-- M12. -/
theorem test_bcd : after (run1 0xF333 { regs [(3, 0x7B)] with i := 0xFFE })
    (fun t => (t.readMem 0xFFE, t.readMem 0xFFF, t.readMem 0, t.i)) = some (1#8, 2#8, 3#8, 0xFFE#16) := by decide
/-- M13. -/
theorem test_st_regs : after (run1 0xF255 { regs [(0, 0x11), (1, 0x22), (2, 0x33), (3, 0x44)] with i := 0x400 })
    (fun t => (t.readBytes 0x400 4, t.i)) = some ([0x11#8, 0x22#8, 0x33#8, 0#8], 0x403#16) := by decide
/-- M16. -/
theorem test_st_regs_wraps : after (run1 0xF155 ({ regs [(0, 0xAB), (1, 0xCD)] with i := 0xFFF }.writeMem 0 0x77))
    (fun t => (t.readMem 0xFFF, t.readMem 0, t.i)) = some (0xAB#8, 0xCD#8, 0x1001#16) := by decide
/-- M17. -/
theorem test_ld_regs : after (run1 0xF265 ({ State.reset with i := 0x300 }.writeBytes 0x300 [2, 5, 4, 9]))
    (fun t => (t.readV 0, t.readV 1, t.readV 2, t.readV 3, t.i)) =
    some (2#8, 5#8, 4#8, 0#8, 0x303#16) := by decide
/-- M18. -/
theorem test_ld_regs_no_increment : after (run1 0xF265 ({ otherQuirks with i := 0x300 }.writeBytes 0x300 [2, 5, 4, 9]))
    (fun t => (t.readV 2, t.readV 3, t.i)) = some (4#8, 0#8, 0x300#16) := by decide

/-! ## Display (G) -/

/-- G1. -/
theorem test_cls : after (run1 0x00E0 (withPixels (regs [(0xF, 1)]) [(0, 0), (63, 31)]))
    (fun t => (rowOf t 0, t.getPixel 63 31, t.readV 0xF)) = some ([], false, 1#8) := by decide
/-- G2. -/
theorem test_drw_wraps : after (run1 0xD011 ({ regs [(0, 0x3C)] with i := 0x300 }.writeMem 0x300 0xFF))
    (fun t => (rowOf t 0, t.readV 0xF)) = some ([0, 1, 2, 3, 60, 61, 62, 63], 0#8) := by decide
/-- G9. -/
theorem test_drw_collides : after (run1 0xD011 (withPixels ({ State.reset with i := 0x300 }.writeMem 0x300 0xC0) [(0, 0)]))
    (fun t => (rowOf t 0, t.readV 0xF)) = some ([1], 1#8) := by decide

/-! ## Keypad, timers and the host (K, H) -/

/-- K5, K2. -/
theorem test_skp : after (run1 0xE59E ((regs [(5, 0x17)]).setKey 7 true)) (fun t => t.pc) = some 0x204#16 ∧
    after (run1 0xE59E (regs [(5, 7)])) (fun t => t.pc) = some 0x202#16 := by decide
/-- K3, K4. -/
theorem test_sknp : after (run1 0xE5A1 ((regs [(5, 7)]).setKey 7 true)) (fun t => t.pc) = some 0x202#16 ∧
    after (run1 0xE5A1 (regs [(5, 7)])) (fun t => t.pc) = some 0x204#16 := by decide
/-- K7. -/
theorem test_key_waits : after (run1 0xF30A State.reset) (fun t => (t.pc, t.status, t.waitReg)) =
    some (0x200#16, .awaitingInput, 3#4) := by decide
/-- K9. -/
theorem test_key_lowest : after (run1 0xF30A ((State.reset.setKey 0xC true).setKey 4 true)) (fun t => (t.readV 3, t.pc)) =
    some (4#8, 0x202#16) := by decide
/-- K10, K11, K12. -/
theorem test_timers : after (run1 0xF407 { State.reset with dt := 5, st := 9 }) (fun t => t.readV 4) = some 5#8 ∧
    after (run1 0xF315 (regs [(3, 7)])) (fun t => (t.dt, t.st)) = some (7#8, 0#8) ∧
    after (run1 0xF118 (regs [(1, 2)])) (fun t => (t.dt, t.st)) = some (0#8, 2#8) := by decide
/-- H1. -/
theorem test_tick : State.tick { State.reset with dt := 2, st := 1 } = { State.reset with dt := 1, st := 0 } := by decide
/-- H14. -/
theorem test_get_pixel : (withPixels State.reset [(10, 3)]).getPixel 10 3 = true ∧
    (withPixels State.reset [(10, 3)]).getPixel 3 10 = false := by decide
/-- R175 with T26: the failed machine answers no further Step until Reset. -/
theorem test_fault_is_final : (Instance.fresh.issue .step).2 = .err (.unknownInstruction 0) ∧
    ((Instance.fresh.run [.step]).issue .step).2 = .faulted (.unknownInstruction 0) := by decide

/-- The end of P1 (`120C` at 0x20C) is the end of a run, and so is no jump elsewhere (E7) and no failed machine (T26). -/
theorem test_end_of_run : Instance.ended ⟨{ State.reset with pc := 0x20C }.withFetchWord 16 0x120C, none⟩ = true ∧
    Instance.ended ⟨State.reset.withFetchWord 16 0x1228, none⟩ = false ∧
    (Instance.fresh.run [.step]).ended = false := by decide

/-! ## Witnesses: the hypotheses of each obligation, met together, at the ends of their ranges -/

/-- The reset state with this opcode at `PC`, which is `pc`. -/
def at_ (pc : Word) (op : Nat) : State := { State.reset with pc := pc }.withFetchWord 16 op

/-- The engine waiting at 0x200 for a key into V3 (K7). -/
def waiting : State := { State.reset.withFetchWord 16 0xF30A with status := .awaitingInput, waitReg := 3 }

theorem reset_inv : State.reset.Inv := ⟨by decide, by decide, by decide, by decide⟩
theorem waiting_inv : waiting.Inv := ⟨by decide, by decide, by decide, by decide⟩

theorem witness_EncodeThenDecode : (Instr.sys 0xFFF#12).wf = true ∧ Instr.cls.wf = true := by decide

theorem witness_DecodeThenEncode : decodeWord 0xFF65#16 = some (.ldRegs 0xF#4) := by decide

theorem witness_UnknownSpaceIsExact : decodeWord 0x5AB1#16 = none ∧ decodeWord 0x8AB8#16 = none ∧
    decodeWord 0x8ABD#16 = none ∧ decodeWord 0x8ABF#16 = none ∧ decodeWord 0x9ABF#16 = none ∧
    decodeWord 0xEA9F#16 = none ∧ decodeWord 0xEAA2#16 = none ∧ decodeWord 0xF000#16 = none ∧
    decodeWord 0xFFFF#16 = none := by decide

theorem witness_DecodeFollowsOpcodeMap : decodeWord 0x8AB4#16 = some (.addReg 0xA#4 0xB#4) ∧
    decodeWord 0x8AB8#16 = none := by decide

theorem witness_RowPrecedence : (0x0FFF#16).toNat < 0x1000 ∧ (Instr.sys 0#12).row.matches 0x00E0#16 = true ∧
    Instr.cls.row.matches 0x00E0#16 = true ∧ (Instr.sys 0#12).row ≠ Instr.cls.row ∧
    Instr.ret.row.matches 0x00EE#16 = true ∧ (Instr.sys 0#12).row.matches 0x00EE#16 = true := by decide

theorem witness_StepRunsTheDecodedInstruction : (at_ 0xFFE 0x2300).status = .ready ∧
    (at_ 0xFFE 0x2300).pc.toNat ≤ 0x0FFE ∧
    decodeWord ((at_ 0xFFE 0x2300).readMem (at_ 0xFFE 0x2300).pc.toNat ++
      (at_ 0xFFE 0x2300).readMem ((at_ 0xFFE 0x2300).pc.toNat + 1)) = some (.call 0x300#12) := by decide

theorem witness_FetchBoundsAndByteOrder : 0x0FFE < State.pc { State.reset with pc := 0xFFF } ∧
    State.reset.status = .ready ∧ (at_ 0xFFE 0).pc.toNat ≤ 0x0FFE := by decide

theorem witness_UnknownOpcodeFails : (at_ 0 0xF308).status = .ready ∧ (at_ 0 0xF308).pc.toNat ≤ 0x0FFE ∧
    decodeWord (fetched (at_ 0 0xF308)) = none := by decide

theorem witness_WaitingStepPollsTheKeys : waiting.status = .awaitingInput ∧
    LeastPressed ((waiting.setKey 0xF true).setKey 0xB true) 0xB#4 ∧ LeastPressed (waiting.setKey 0xF true) 0xF#4 ∧
    ∀ k, waiting.isPressed k = false := by
  unfold LeastPressed
  decide

theorem witness_StepFailsExactlyAsListed : FailsWith { State.reset with pc := 0xFFF } (.outOfBoundsAccess 0xFFF) ∧
    FailsWith (at_ 0 0x5341) (.unknownInstruction 0x5341) ∧ FailsWith (at_ 0 0x0123) (.unknownInstruction 0x0123) ∧
    FailsWith { at_ 0 0x2208 with sp := 16 } .stackOverflow ∧ FailsWith (at_ 0 0x00EE) .stackUnderflow :=
  ⟨⟨rfl, .inl (by decide)⟩, ⟨rfl, .inr ⟨by decide, .inl (by decide)⟩⟩,
    ⟨rfl, .inr ⟨by decide, .inr (.inl ⟨0x123#12, by decide⟩)⟩⟩,
    ⟨rfl, .inr ⟨by decide, .inr (.inr (.inl ⟨0x208#12, by decide⟩))⟩⟩,
    ⟨rfl, .inr ⟨by decide, .inr (.inr (.inr (by decide)))⟩⟩⟩

theorem witness_PlacedWordIsRunNext : decodeTableWord 16 0xFF65 = some (.ldRegs 0xF#4) ∧
    decodeTableWord 16 65535 = none ∧ 65535 < 65536 := by decide

theorem witness_SysByConfiguration : otherQuirks.cfg.sysIsNop = true ∧ State.reset.cfg.sysIsNop = false := by decide

theorem witness_RetPopsTheReturnAddress : State.reset.sp.val = 0 ∧
    State.sp { State.reset with sp := 1 } = (0 : Fin 16).val + 1 ∧
    State.sp { State.reset with sp := 16 } = (15 : Fin 16).val + 1 := by decide

theorem witness_CallPushesTheReturnAddress : (State.sp { State.reset with sp := 16 }).val = 16 ∧
    (State.sp { State.reset with sp := 15 }).val < 16 ∧ State.reset.sp.val < 16 := by decide

theorem witness_StackIsLifo : State.reset.sp.val = (0 : Fin 16).val ∧
    (State.sp { State.reset with sp := 15 }).val = (15 : Fin 16).val ∧ State.reset.sp.val + (List.replicate 16 (0x202#16)).length ≤ 16 ∧
    (State.sp { State.reset with sp := 16 }).val + ([] : List Word).length ≤ 16 ∧
    (State.sp { State.reset with sp := 16 }).val = 16 := by decide

theorem witness_SkipsTestTheirCondition : State.reset.readV 1 = 0#8 ∧ State.reset.readV 1 ≠ 1#8 ∧
    State.reset.readV 1 = State.reset.readV 2 ∧ (regs [(1, 0xFF)]).readV 1 ≠ (regs [(1, 0xFF)]).readV 2 ∧
    ((regs [(1, 0xFF)]).setKey 0xF true).key.toList[255 % 16]? = some true ∧
    State.reset.key.toList[0 % 16]? = some false := by decide

theorem witness_AddAndSubtractWithFlag : 255 = ((regs [(1, 0xFF)]).readV 1).toNat ∧
    0 = ((regs [(1, 0xFF)]).readV 0).toNat := by decide

theorem witness_ShiftsBothQuirks :
    130 = (if State.reset.cfg.shiftUsesVy = true then ((regs [(2, 0x82)]).readV 2).toNat else 0) ∧
    5 = (if otherQuirks.cfg.shiftUsesVy = true then 0 else ((regs [(1, 5)]).readV 1).toNat) := by decide

theorem witness_RandomByteAndMask : (State.reset.withRandom [0xA7]).randScript = 0xA7#8 :: [] ∧
    State.reset.randScript = [] := by decide

theorem witness_BcdStoresThreeDigits : ∀ j < 3, 0x001 % 4096 ≠ ((0xFFE#16).toNat + j) % 4096 := by decide

theorem witness_RegistersStoreToMemory : (0xF#4).toNat ≤ (0xF#4).toNat ∧
    ∀ j ≤ (0xF#4).toNat, 0x00F % 4096 ≠ ((0xFFF#16).toNat + j) % 4096 := by decide

theorem witness_StoreIsSeenByTheNextFetch : 1 ≤ (1#4).toNat ∧
    State.i { at_ 0xFFC 0xF155 with i := 0xFFE } = State.pc { at_ 0xFFC 0xF155 with i := 0xFFE } + 2 ∧
    (State.pc { at_ 0xFFC 0xF155 with i := 0xFFE }).toNat ≤ 0x0FFC := by decide

/-- The state of G2. -/
def drawState : State := { regs [(0, 0x3C)] with i := 0x300 }.writeMem 0x300 0xFF

theorem witness_DrawWrapsAtTheRightEdge : (∀ px py, drawState.getPixel px py = false) ∧ drawState.readV 0 = 60#8 ∧
    drawState.readV 1 = 0#8 ∧ drawState.readMem drawState.i.toNat = 0xFF#8 := by
  refine ⟨fun px py => ?_, by decide⟩
  show ((Vector.replicate 32 (Vector.replicate 64 false))[py])[px] = false
  simp

theorem witness_KeyInstructionTakesOrWaits : LeastPressed (State.reset.setKey 0xF true) 0xF#4 ∧
    LeastPressed ((State.reset.setKey 0xF true).setKey 0 true) 0#4 ∧ ∀ k, State.reset.isPressed k = false := by
  unfold LeastPressed
  decide

theorem witness_OnlyWritersChangeState : (∃ t, step waiting = .next t) ∧
    ∃ t, step (at_ 0 0xA300) = .next t ∧ decodeWord (fetched (at_ 0 0xA300)) = some (.ldI 0x300#12) ∧
      (at_ 0 0xA300).status = .ready ∧ t.i ≠ (at_ 0 0xA300).i :=
  ⟨⟨_, rfl⟩, _, rfl, by decide⟩

/-- The state after CXNN and the other changes OnlyWritersChangeState names, one Step each. -/
theorem witness_OnlyWritersChangeState_each :
    (∃ t, step (at_ 0 0x2300) = .next t ∧ t.sp ≠ (at_ 0 0x2300).sp ∧ t.stack ≠ (at_ 0 0x2300).stack) ∧
    (∃ t, step (at_ 0 0xF015) = .next t ∧ t.dt = (at_ 0 0xF015).dt) ∧
    (∃ t, step ((at_ 0 0xF015).writeV 0 1) = .next t ∧ t.dt ≠ 0#8) ∧
    (∃ t, step ((at_ 0 0xF018).writeV 0 1) = .next t ∧ t.st ≠ 0#8) ∧
    (∃ t, step (withPixels (at_ 0 0x00E0) [(0, 0)]) = .next t ∧ t.fb ≠ (withPixels (at_ 0 0x00E0) [(0, 0)]).fb) ∧
    (∃ t, step ({ at_ 0 0xF055 with i := 0x300 }.writeV 0 1) = .next t ∧ t.mem ≠ (at_ 0 0xF055).mem) ∧
    (∃ t, step (at_ 0 0xF30A) = .next t ∧ t.status ≠ .ready ∧ t.waitReg ≠ 0#4) ∧
    (∃ t, step (at_ 0 0xC300) = .next t ∧ t.randCount ≠ 0) :=
  ⟨⟨_, rfl, by decide⟩, ⟨_, rfl, by decide⟩, ⟨_, rfl, by decide⟩, ⟨_, rfl, by decide⟩, ⟨_, rfl, by decide⟩,
    ⟨_, rfl, by decide⟩, ⟨_, rfl, by decide⟩, ⟨_, rfl, by decide⟩⟩

theorem witness_OnlyFlagWritersChangeVF :
    (∃ t, exec (.shr 1 2) (regs [(2, 1)]) = .next t ∧ t.readV 0xF#4 ≠ (regs [(2, 1)]).readV 0xF#4) ∧
    ∃ t, exec (.ldImm 0xF 5) State.reset = .next t ∧ t.readV 0xF#4 ≠ State.reset.readV 0xF#4 :=
  ⟨⟨_, rfl, by decide⟩, _, rfl, by decide⟩

theorem witness_PcAfterEachInstruction : (∃ t, exec (.jpV0 0xFFF) (regs [(0, 0xFF)]) = .next t ∧ t.pc = 0x10FE#16) ∧
    ∃ t, exec .ret { State.reset with sp := 16 } = .next t ∧ t.pc = 0#16 :=
  ⟨⟨_, rfl, by decide⟩, _, rfl, by decide⟩

theorem witness_StepKeepsTheInvariant : (∃ t, waiting.Inv ∧ step waiting = .next t) ∧
    ∃ t, (at_ 0x10 0xF155).Inv ∧ step (at_ 0x10 0xF155) = .next t :=
  ⟨⟨_, waiting_inv, rfl⟩, _, ⟨by decide, by decide, by decide, by decide⟩, rfl⟩

theorem witness_StepKeepsTheWaitLatch : (∃ t, waiting.WaitsAtKeyInstr ∧ step waiting = .next t) ∧
    ∃ t, (at_ 0 0xF30A).WaitsAtKeyInstr ∧ step (at_ 0 0xF30A) = .next t :=
  ⟨⟨_, by decide, rfl⟩, _, by decide, rfl⟩

theorem witness_EveryHostRunKeepsTheInvariant : Instance.fresh.state.Inv := reset_inv

theorem witness_LoadPlacesTheProgram : 4096 < 0x200 + (List.replicate 3585 0x12#8).length ∧
    0x200 + (List.replicate 3584 0x12#8).length ≤ 4096 ∧ 3583 < (List.replicate 3584 0x12#8).length := by
  simp only [List.length_replicate]
  decide

theorem witness_BootRunsTheFirstOpcode : (List.replicate 3582 0#8).length ≤ 3582 ∧
    decodeWord (0x12#8 ++ 0x28#8) = some (.jp 0x228#12) := by
  simp only [List.length_replicate]
  decide

theorem witness_ResetElementByElement : (∃ t, t = waiting.resetBy otherQuirks.cfg) ∧
    0x04F < defaultConfig.fontBase.val ∧ defaultConfig.fontBase.val + 80 ≤ 0x0A0 ∧ 0xFFF < 4096 :=
  ⟨⟨_, rfl⟩, by decide⟩

theorem witness_FontTableAtReset : 15 < 16 ∧ 4 < 5 ∧ 0 < 5 := by decide

theorem witness_FailureStandsUntilReset : Instance.fresh.failure = none ∧
    step Instance.fresh.state = .fault (.unknownInstruction 0) ∧
    ∀ op ∈ [HostOp.tick, .setKey 3 true, .step, .load [0x12, 0x28]], ∀ c, op ≠ .reset c := by
  refine ⟨rfl, rfl, ?_⟩
  simp

theorem witness_EndOfRunIsAnIdleSelfJump : Instance.ended ⟨at_ 0x000 0x1000, none⟩ = true ∧
    Instance.ended ⟨at_ 0xFFE 0x1FFE, none⟩ = true ∧
    (∀ op ∈ [HostOp.tick, .setKey 3 true, .step], (∀ c, op ≠ .reset c) ∧ ∀ bytes, op ≠ .load bytes) ∧
    ∀ op ∈ [HostOp.step, .step], op = .step := by
  refine ⟨by decide, by decide, ?_, by decide⟩
  simp

end Sys2Proof.Tests
end

section
/-! PROOFS. The family 10_state.md. What a successful instruction writes is said once, as an inversion lemma per
instruction that can fail or wait (`exec_*_next`) and as one frame for all 35 (`exec_frame`); the claims about the whole
machine follow from these and from the laws of Sys2Proof/Laws. -/

namespace Sys2Proof.Machine

open Sys2Proof.Statements

/-! ## The stack (R19 to R21) -/

theorem zextAddr_toNat (nnn : Addr12) : (zextAddr nnn).toNat = nnn.toNat :=
  BitVec.toNat_setWidth_of_le (by decide)

/-- Settles O16: the two cases of CALL, told apart by `SP`. -/
theorem callPushesTheReturnAddress : Obligations.CallPushesTheReturnAddress := by
  intro s nnn
  refine ⟨fun hfull => ((execCall_cases nnn s).resolve_left fun ⟨hs, _⟩ => by omega).2, fun hroom => ?_⟩
  obtain ⟨hs, hnext⟩ := (execCall_cases nnn s).resolve_right fun ⟨hfull, _⟩ => by omega
  refine ⟨_, hnext, zextAddr_toNat nnn, rfl, fun j => ?_, rfl⟩
  simp [Vector.getElem_set, eq_comm]

/-- A push onto a stack with room is undone by a pop. -/
theorem State.pop_of_push {s t : State} {a : Word} (h : s.push a = .ok t) :
    t.pop = .ok (a, { t with sp := s.sp }) := by
  rcases s.push_cases a with ⟨hs, e⟩ | ⟨-, e⟩ <;> rw [e] at h <;> cases h
  rw [State.pop_ok (Nat.succ_pos _)]
  simp

/-- Popping `n + 1` addresses is popping `n`, and then one more. -/
theorem popMany_succ_last {n : Nat} {t u w : State} {as : List Word} {a : Word}
    (hn : popMany n t = .ok (as, u)) (hlast : u.pop = .ok (a, w)) : popMany (n + 1) t = .ok (as ++ [a], w) := by
  induction n generalizing t as with
  | zero =>
    cases hn
    simp [popMany, hlast]
  | succ n ih =>
    rw [popMany] at hn
    split at hn
    · rename_i b t' hpop
      split at hn
      · rename_i bs u' hrest
        cases hn
        rw [popMany, hpop]
        simp [ih hrest]
      · cases hn
    · cases hn

/-- A list of addresses that fits is pushed, and popping as many gives it back in reverse order, with `SP` and the entries
that were in use as before. -/
theorem popMany_pushAll (s : State) (as : List Word) (h : s.sp.val + as.length ≤ 16) :
    ∃ t u, pushAll as s = .ok t ∧ t.sp.val = s.sp.val + as.length ∧ popMany as.length t = .ok (as.reverse, u) ∧
      u.sp = s.sp ∧ ∀ j : Fin 16, j.val < s.sp.val → u.stack[j] = s.stack[j] := by
  induction as generalizing s with
  | nil => exact ⟨s, s, rfl, rfl, rfl, rfl, fun _ _ => rfl⟩
  | cons a as ih =>
    have hs : s.sp.val < 16 := by simp only [List.length_cons] at h; omega
    have hpush := State.push_ok a hs
    set s₁ : State := { s with stack := s.stack.set s.sp.val a hs, sp := ⟨s.sp.val + 1, by omega⟩ } with hs₁
    have hsp₁ : s₁.sp.val = s.sp.val + 1 := rfl
    obtain ⟨t, u, hpushAll, hsp, hpop, husp, hkeep⟩ := ih s₁ (by simp only [List.length_cons] at h; omega)
    have htop : u.stack[s.sp.val] = a := by
      have hslot := hkeep ⟨s.sp.val, hs⟩ (Nat.lt_succ_self _)
      simpa [hs₁] using hslot
    have hlast : u.pop = .ok (a, { u with sp := s.sp }) := by
      rw [State.pop_ok (by rw [husp]; omega)]
      simp [husp, hsp₁, htop]
    refine ⟨t, { u with sp := s.sp }, ?_, ?_, ?_, rfl, fun j hj => ?_⟩
    · rw [pushAll, hpush]
      exact hpushAll
    · rw [hsp, hsp₁, List.length_cons]
      omega
    · rw [List.length_cons, List.reverse_cons]
      exact popMany_succ_last hpop hlast
    · have hne : s.sp.val ≠ j.val := by omega
      simpa [hs₁, hne] using hkeep j (by omega)

/-- Settles O17: one push and one pop by their cases, a list of addresses by induction on it. -/
theorem stackIsLifo : Obligations.StackIsLifo := by
  refine ⟨fun s a j hj => ?_, popMany_pushAll, fun s a => State.push_full a, fun s => State.pop_empty⟩
  have hpush := State.push_ok (s := s) a (by omega)
  refine ⟨_, hpush, congrArg (· + 1) hj, fun k => ?_, rfl, _, State.pop_of_push hpush, rfl, rfl⟩
  simp [Vector.getElem_set, hj, Fin.ext_iff, eq_comm]

/-! ## Reset (R190) and the font table (R28) -/

/-- A byte of a state just reset is the byte Reset leaves there. -/
theorem State.readMem_of_mem_nil {s : State} (h : s.mem = []) {a : Nat} (ha : a < 4096) :
    s.readMem a = resetByte s.cfg a := by
  rw [State.readMem, h, memSize, Nat.mod_eq_of_lt ha, Memory.lookup]

theorem resetByte_outside {c : Config} {a : Nat} (h : a < c.fontBase.val ∨ c.fontBase.val + 80 ≤ a) :
    resetByte c a = 0#8 := by
  rw [resetByte, if_neg (by omega)]
  rfl

theorem resetByte_font (c : Config) {k : Nat} (h : k < 80) :
    resetByte c (c.fontBase.val + k) = fontTable.getD k 0 := by
  rw [resetByte, if_pos (by omega), Nat.add_sub_cancel_left]

/-- The model's table of bytes and the table of R28 written as sixteen 40-bit glyphs are the same. -/
theorem fontTable_eq_glyphs : ∀ d < 16, ∀ r < 5,
    fontTable.getD (5 * d + r) 0 = (glyphs.getD d 0).extractLsb' (8 * (4 - r)) 8 := by
  decide

/-- Settles O47: the fields of the reset state, and no listed byte of memory. -/
theorem resetElementByElement : Obligations.ResetElementByElement := by
  rintro s t c rfl
  refine ⟨fun r => ?_, rfl, rfl, rfl, fun j => ?_, rfl, rfl, fun px py => ?_, fun k => ?_, rfl, rfl, rfl,
    fun a ha hout => ?_⟩
  · simp [State.readV, State.resetBy, State.resetWith]
  · simp [State.resetBy, State.resetWith]
  · exact Framebuffer.pixel_blank px py
  · simp [State.isPressed, State.resetBy, State.resetWith]
  · rw [State.readMem_of_mem_nil rfl ha]
    exact resetByte_outside hout

/-- Settles O48: the bytes from `FONT_BASE` on are the font table, and that is the table of R28. -/
theorem fontTableAtReset : Obligations.FontTableAtReset := by
  intro c d r hd hr
  have hbase := c.fontBase.isLt
  rw [State.readMem_of_mem_nil rfl (by omega), Nat.add_assoc]
  exact (resetByte_font c (by omega)).trans (fontTable_eq_glyphs d hd r hr)

/-! ## What an instruction that can fail or wait was, when it succeeded -/

theorem exec_sys_next {nnn : Addr12} {s t : State} (h : exec (.sys nnn) s = .next t) : t = s.advance := by
  rcases execSys_cases nnn s with ⟨-, e⟩ | ⟨-, e⟩ <;> rw [exec, e] at h <;> cases h
  rfl

theorem exec_ret_next {s t : State} (h : exec .ret s = .next t) : ∃ hs : 0 < s.sp.val,
    t = State.jump { s with sp := ⟨s.sp.val - 1, by omega⟩ } (s.stack[s.sp.val - 1]'(by omega)) := by
  rcases execRet_cases s with ⟨hs, e⟩ | ⟨-, e⟩ <;> rw [exec, e] at h <;> cases h
  exact ⟨hs, rfl⟩

theorem exec_call_next {nnn : Addr12} {s t : State} (h : exec (.call nnn) s = .next t) : ∃ hs : s.sp.val < 16,
    t = State.jump { s with stack := s.stack.set s.sp.val (s.pc + 2) hs, sp := ⟨s.sp.val + 1, by omega⟩ }
      (zextAddr nnn) := by
  rcases execCall_cases nnn s with ⟨hs, e⟩ | ⟨-, e⟩ <;> rw [exec, e] at h <;> cases h
  exact ⟨hs, rfl⟩

theorem exec_ldVxK_next {x : Nibble} {s t : State} (h : exec (.ldVxK x) s = .next t) :
    (∃ k, s.lowestKey = some k ∧ t = (s.writeV x (keyByte k)).advance) ∨
    (s.lowestKey = none ∧ t = { s with waitReg := x, status := .awaitingInput }) := by
  rcases execLdVxK_cases x s with ⟨k, hk, e⟩ | ⟨hk, e⟩ <;> rw [exec, e] at h <;> cases h
  · exact .inl ⟨k, hk, rfl⟩
  · exact .inr ⟨hk, rfl⟩

/-! ## The frame of every instruction (R10) -/

/-- The state `s` with the elements instruction `i` may write taken from `t`: R10's table of writers, read by instruction. -/
def frameOf (i : Instr) (s t : State) : State :=
  match i with
  | .sys _ | .jp _ | .jpV0 _ | .seImm _ _ | .sneImm _ _ | .seReg _ _ | .sneReg _ _ | .skp _ | .sknp _ =>
    { s with pc := t.pc }
  | .ldImm _ _ | .addImm _ _ | .ldReg _ _ | .orReg _ _ | .andReg _ _ | .xorReg _ _ | .addReg _ _ | .subReg _ _
  | .shr _ _ | .subn _ _ | .shl _ _ | .ldVxDt _ => { s with v := t.v, pc := t.pc }
  | .ret => { s with pc := t.pc, sp := t.sp }
  | .call _ => { s with pc := t.pc, sp := t.sp, stack := t.stack }
  | .rnd _ _ => { s with v := t.v, pc := t.pc, randScript := t.randScript, randCount := t.randCount }
  | .cls => { s with pc := t.pc, fb := t.fb }
  | .drw _ _ _ => { s with v := t.v, pc := t.pc, fb := t.fb }
  | .ldVxK _ => { s with v := t.v, pc := t.pc, status := t.status, waitReg := t.waitReg }
  | .ldDtVx _ => { s with pc := t.pc, dt := t.dt }
  | .ldStVx _ => { s with pc := t.pc, st := t.st }
  | .ldI _ | .addI _ | .ldF _ => { s with pc := t.pc, i := t.i }
  | .ldB _ => { s with pc := t.pc, mem := t.mem }
  | .stRegs _ => { s with pc := t.pc, mem := t.mem, i := if s.cfg.indexIncrement then t.i else s.i }
  | .ldRegs _ => { s with v := t.v, pc := t.pc, i := if s.cfg.indexIncrement then t.i else s.i }

/-- Where `INDEX_INCREMENT` is false, FX55 and FX65 leave `I` (R144, R145). -/
theorem State.indexAfter_eq_ite (s : State) (x : Nibble) :
    s.indexAfter x = if s.cfg.indexIncrement then s.indexAfter x else s.i := by
  unfold State.indexAfter
  split <;> rfl

/-- A successful instruction wrote no more than its elements. -/
theorem exec_frame {i : Instr} {s t : State} (h : exec i s = .next t) : t = frameOf i s t := by
  cases i
  case sys nnn =>
    obtain rfl := exec_sys_next h
    rfl
  case ret =>
    obtain ⟨-, rfl⟩ := exec_ret_next h
    rfl
  case call nnn =>
    obtain ⟨-, rfl⟩ := exec_call_next h
    rfl
  case ldVxK x =>
    rcases exec_ldVxK_next h with ⟨k, -, rfl⟩ | ⟨-, rfl⟩
    · rfl
    · rfl
  case ldB x =>
    cases h
    rw [State.writeBytes_eq]
    rfl
  case stRegs x =>
    cases h
    rw [State.storeRegs_eq]
    simp only [frameOf, State.advance_i, State.writeI_i, ← State.indexAfter_eq_ite]
    rfl
  case ldRegs x =>
    cases h
    rw [State.loadRegs_eq]
    simp only [frameOf, State.advance_i, State.writeI_i, ← State.indexAfter_eq_ite]
    rfl
  all_goals
    cases h
    rfl

/-! ## Which instruction changed an element -/

section Writers

variable {i : Instr} {s t : State} (h : exec i s = .next t)

include h

theorem exec_writes_i (hne : t.i ≠ s.i) : (∃ a, i = .ldI a) ∨ (∃ x, i = .addI x) ∨ (∃ x, i = .ldF x) ∨
    (s.cfg.indexIncrement = true ∧ ((∃ x, i = .stRegs x) ∨ (∃ x, i = .ldRegs x))) := by
  have hi := congrArg State.i (exec_frame h)
  have hinc {a : Word} (ha : t.i = if s.cfg.indexIncrement then a else s.i) : s.cfg.indexIncrement = true := by
    by_contra hc
    exact hne (ha.trans (if_neg hc))
  cases i
  case ldI a => exact .inl ⟨a, rfl⟩
  case addI x => exact .inr (.inl ⟨x, rfl⟩)
  case ldF x => exact .inr (.inr (.inl ⟨x, rfl⟩))
  case stRegs x => exact .inr (.inr (.inr ⟨hinc hi, .inl ⟨x, rfl⟩⟩))
  case ldRegs x => exact .inr (.inr (.inr ⟨hinc hi, .inr ⟨x, rfl⟩⟩))
  all_goals exact absurd hi hne

theorem exec_writes_stack (hne : t.stack ≠ s.stack) : ∃ a, i = .call a := by
  have hstack := congrArg State.stack (exec_frame h)
  cases i
  case call a => exact ⟨a, rfl⟩
  all_goals exact absurd hstack hne

theorem exec_writes_sp (hne : t.sp ≠ s.sp) : (∃ a, i = .call a) ∨ i = .ret := by
  have hsp := congrArg State.sp (exec_frame h)
  cases i
  case call a => exact .inl ⟨a, rfl⟩
  case ret => exact .inr rfl
  all_goals exact absurd hsp hne

theorem exec_writes_dt (hne : t.dt ≠ s.dt) : ∃ x, i = .ldDtVx x := by
  have hdt := congrArg State.dt (exec_frame h)
  cases i
  case ldDtVx x => exact ⟨x, rfl⟩
  all_goals exact absurd hdt hne

theorem exec_writes_st (hne : t.st ≠ s.st) : ∃ x, i = .ldStVx x := by
  have hst := congrArg State.st (exec_frame h)
  cases i
  case ldStVx x => exact ⟨x, rfl⟩
  all_goals exact absurd hst hne

theorem exec_writes_mem (hne : t.mem ≠ s.mem) : (∃ x, i = .ldB x) ∨ (∃ x, i = .stRegs x) := by
  have hmem := congrArg State.mem (exec_frame h)
  cases i
  case ldB x => exact .inl ⟨x, rfl⟩
  case stRegs x => exact .inr ⟨x, rfl⟩
  all_goals exact absurd hmem hne

theorem exec_writes_fb (hne : t.fb ≠ s.fb) : i = .cls ∨ ∃ x y n, i = .drw x y n := by
  have hfb := congrArg State.fb (exec_frame h)
  cases i
  case cls => exact .inl rfl
  case drw x y n => exact .inr ⟨x, y, n, rfl⟩
  all_goals exact absurd hfb hne

theorem exec_writes_status (hne : t.status ≠ s.status) : ∃ x, i = .ldVxK x := by
  have hstatus := congrArg State.status (exec_frame h)
  cases i
  case ldVxK x => exact ⟨x, rfl⟩
  all_goals exact absurd hstatus hne

theorem exec_writes_waitReg (hne : t.waitReg ≠ s.waitReg) : ∃ x, i = .ldVxK x := by
  have hwait := congrArg State.waitReg (exec_frame h)
  cases i
  case ldVxK x => exact ⟨x, rfl⟩
  all_goals exact absurd hwait hne

theorem exec_asks_random (hne : t.randCount ≠ s.randCount ∨ t.randScript ≠ s.randScript) :
    ∃ x nn, i = .rnd x nn := by
  have hcount := congrArg State.randCount (exec_frame h)
  have hscript := congrArg State.randScript (exec_frame h)
  cases i
  case rnd x nn => exact ⟨x, nn, rfl⟩
  all_goals exact hne.elim (absurd hcount) (absurd hscript)

end Writers

/-- What a poll of the keys may write (R83). -/
theorem pollKey_frame {s t : State} (h : pollKey s = .next t) :
    t = { s with v := t.v, pc := t.pc, status := t.status } := by
  rcases pollKey_cases s with ⟨k, -, e⟩ | ⟨-, e⟩ <;> rw [e] at h <;> cases h
  · rfl
  · rfl

/-- Settles O36: a Step is a poll of the keys or one instruction, and each writes within its frame. -/
theorem onlyWritersChangeState : Obligations.OnlyWritersChangeState := by
  intro s t hstep
  rcases step_cases hstep with ⟨hs, hpoll⟩ | ⟨hs, -, i, hi, h⟩
  · have hf := pollKey_frame hpoll
    refine ⟨(congrArg State.key hf :), (congrArg State.cfg hf :), fun _ => hf, fun _ _ hr => ?_⟩
    exact absurd (hs.symm.trans hr) (by decide)
  · obtain ⟨hkey, hcfg⟩ := exec_keeps_key_cfg h
    refine ⟨hkey, hcfg, fun ha => absurd (hs.symm.trans ha) (by decide), fun j hj _ => ?_⟩
    obtain rfl : i = j := Option.some.inj (hi.symm.trans hj)
    exact ⟨exec_writes_i h, exec_writes_stack h, exec_writes_sp h, exec_writes_dt h, exec_writes_st h,
      exec_writes_mem h, exec_writes_fb h, exec_writes_status h, exec_writes_waitReg h, exec_asks_random h⟩

/-! ## The flag register (R24) -/

/-- A write to one register that changes another's value was a write to that other register. -/
theorem State.eq_of_readV_writeV_ne {s : State} {x r : Nibble} {b : Byte} (hne : (s.writeV x b).readV r ≠ s.readV r) :
    (x == r) = true := by
  by_contra hx
  rw [State.readV_writeV, if_neg fun e => hx (beq_iff_eq.mpr e.symm)] at hne
  exact hne rfl

/-- The load loop of FX65 reaches `V[15]` for `X = F` only. -/
theorem State.eq_vF_of_readV_loadRegs_ne {s : State} {base : Nat} {x : Nibble}
    (hne : (s.loadRegs base (x.toNat + 1)).readV 0xF#4 ≠ s.readV 0xF#4) : (x == 0xF#4) = true := by
  by_contra hx
  have hlt : x.toNat ≠ 15 := fun e => hx (beq_iff_eq.mpr (BitVec.eq_of_toNat_eq e))
  have hx16 := x.isLt
  rw [State.readV_loadRegs _ _ _ (by omega), if_neg (by simp only [BitVec.toNat_ofNat]; omega)] at hne
  exact hne rfl

/-- Settles O37: an instruction writes `VF` as a flag, or writes a named destination, or its frame holds no register. -/
theorem onlyFlagWritersChangeVF : Obligations.OnlyFlagWritersChangeVF := by
  intro i s t h hne
  have hv := congrArg State.v (exec_frame h)
  cases i
  case addReg | subReg | shr | subn | shl | drw => exact .inl rfl
  case ldImm | addImm | ldReg | orReg | andReg | xorReg | rnd | ldVxDt =>
    cases h
    exact .inr (State.eq_of_readV_writeV_ne hne)
  case ldVxK x =>
    rcases exec_ldVxK_next h with ⟨k, -, rfl⟩ | ⟨-, rfl⟩
    · exact .inr (State.eq_of_readV_writeV_ne hne)
    · exact absurd rfl hne
  case ldRegs x =>
    cases h
    exact .inr (State.eq_vF_of_readV_loadRegs_ne hne)
  all_goals exact absurd (State.readV_congr hv _) hne

/-! ## PC (R14 to R16) -/

theorem State.skipIf_pc_mem (s : State) (c : Bool) : (s.skipIf c).pc ∈ [s.pc + 2, s.pc + 4] := by
  cases c
  · exact List.mem_cons_self
  · exact List.mem_cons_of_mem _ List.mem_cons_self

theorem State.writeBytes_pc (s : State) (base : Nat) (bs : List Byte) : (s.writeBytes base bs).pc = s.pc := by
  rw [State.writeBytes_eq]

theorem State.storeRegs_pc (s : State) (base n : Nat) : (s.storeRegs base n).pc = s.pc := by
  rw [State.storeRegs_eq]

theorem State.loadRegs_pc (s : State) (base n : Nat) : (s.loadRegs base n).pc = s.pc := by
  rw [State.loadRegs_eq]

/-- Settles O38: the instructions that override `pc0 + 2` one by one, then the others. -/
theorem pcAfterEachInstruction : Obligations.PcAfterEachInstruction := by
  intro i s t h
  cases i
  case sys nnn =>
    obtain rfl := exec_sys_next h
    exact List.mem_singleton.mpr rfl
  case ret =>
    obtain ⟨hs, rfl⟩ := exec_ret_next h
    have hlt : s.sp.val - 1 < 16 := by omega
    simp [pcValues, hlt]
  case call nnn =>
    obtain ⟨-, rfl⟩ := exec_call_next h
    exact List.mem_singleton.mpr rfl
  case seImm | sneImm | seReg | sneReg | skp | sknp =>
    cases h
    exact State.skipIf_pc_mem s _
  case ldVxK x =>
    rcases exec_ldVxK_next h with ⟨k, hk, rfl⟩ | ⟨hk, rfl⟩
    · simp [pcValues, hk]
    · simp [pcValues, hk]
  case ldB x =>
    cases h
    exact List.mem_singleton.mpr (congrArg (· + 2) (State.writeBytes_pc ..))
  case stRegs x =>
    cases h
    exact List.mem_singleton.mpr (congrArg (· + 2) (State.storeRegs_pc ..))
  case ldRegs x =>
    cases h
    exact List.mem_singleton.mpr (congrArg (· + 2) (State.loadRegs_pc ..))
  all_goals
    cases h
    exact List.mem_singleton.mpr rfl

/-- From a fetchable `PC`, every value R14 allows but a popped one is at most 0x10FE (R16). -/
theorem pcValues_le {i : Instr} {s : State} (hi : i ≠ .ret) (hp : s.pc.toNat ≤ lastFetchAddr) {a : Word}
    (ha : a ∈ pcValues i s) : a.toNat ≤ 0x10FE := by
  simp only [lastFetchAddr] at hp
  have h2 : (s.pc + 2).toNat ≤ 0x10FE := by bv_omega
  cases i
  case ret => exact absurd rfl hi
  case jp nnn | call nnn =>
    obtain rfl := List.mem_singleton.mp ha
    exact (zextAddr_toNat nnn).trans_le (by omega)
  case jpV0 nnn =>
    obtain rfl := List.mem_singleton.mp ha
    bv_omega
  case seImm | sneImm | seReg | sneReg | skp | sknp =>
    rcases List.mem_pair.mp ha with rfl | rfl
    · exact h2
    · bv_omega
  case ldVxK x =>
    obtain rfl := List.mem_singleton.mp ha
    split
    · omega
    · exact h2
  all_goals
    obtain rfl := List.mem_singleton.mp ha
    exact h2

/-! ## The invariant (R16, R23, R101) -/

theorem exec_keeps_pcOk {i : Instr} {s t : State} (hp : s.pc.toNat ≤ lastFetchAddr) (hst : s.stackOk)
    (h : exec i s = .next t) : t.pcOk := by
  by_cases hi : i = .ret
  · subst hi
    obtain ⟨hs, rfl⟩ := exec_ret_next h
    have hpop : (s.stack[s.sp.val - 1]'(by omega)).toNat ≤ 0x1000 :=
      hst ⟨s.sp.val - 1, by omega⟩ (by show s.sp.val - 1 < s.sp.val; omega)
    exact hpop.trans (by decide)
  · exact pcValues_le hi hp (pcAfterEachInstruction i s t h)

theorem exec_keeps_stackOk {i : Instr} {s t : State} (hp : s.pc.toNat ≤ lastFetchAddr) (hst : s.stackOk)
    (h : exec i s = .next t) : t.stackOk := by
  intro j hj
  rcases exec_stack_cases h with ⟨hstack, hsp⟩ | ⟨hs, hstack, hsp⟩ <;> rw [hstack]
  · exact hst j (by omega)
  · by_cases hjs : s.sp.val = j.val
    · simp only [lastFetchAddr] at hp
      simp only [Fin.getElem_fin, Vector.getElem_set, hjs, if_true]
      bv_omega
    · simp only [Fin.getElem_fin, Vector.getElem_set, hjs, if_false]
      exact hst j (by omega)

theorem exec_keeps_waitPcOk {i : Instr} {s t : State} (hs : s.status = .ready) (hp : s.pc.toNat ≤ lastFetchAddr)
    (h : exec i s = .next t) : t.waitPcOk := by
  intro ha
  obtain ⟨x, -, rfl⟩ := exec_awaits_only_at_key hs h ha
  exact hp

/-- An instruction fetched at a legal `PC` keeps the invariant. -/
theorem exec_keeps_inv {i : Instr} {s t : State} (hinv : s.Inv) (hs : s.status = .ready)
    (hp : s.pc.toNat ≤ lastFetchAddr) (h : exec i s = .next t) : t.Inv where
  mem := exec_keeps_memOk hinv.mem h
  pc := exec_keeps_pcOk hp hinv.stack h
  stack := exec_keeps_stackOk hp hinv.stack h
  wait := exec_keeps_waitPcOk hs hp h

/-- A poll of the keys keeps the invariant: the wait ends two past a fetchable `PC`, or nothing changes. -/
theorem pollKey_keeps_inv {s t : State} (hinv : s.Inv) (hs : s.status = .awaitingInput) (h : pollKey s = .next t) :
    t.Inv := by
  rcases pollKey_cases s with ⟨k, -, e⟩ | ⟨-, e⟩ <;> rw [e] at h <;> cases h
  · have hp := hinv.wait hs
    simp only [lastFetchAddr] at hp
    refine ⟨hinv.mem, ?_, hinv.stack, fun ha => absurd ha (by simp)⟩
    show (s.pc + 2).toNat ≤ 0x10FE
    bv_omega
  · exact hinv

/-- Settles O40: by the two cases of a Step. -/
theorem stepKeepsTheInvariant : Obligations.StepKeepsTheInvariant := by
  intro s t hinv hstep
  rcases step_cases hstep with ⟨hs, hpoll⟩ | ⟨hs, hp, i, -, h⟩
  · exact pollKey_keeps_inv hinv hs hpoll
  · exact exec_keeps_inv hinv hs hp h

/-- Settles O41: a wait goes on in an unchanged state, or begins at the FX0A just fetched, which it leaves in place. -/
theorem stepKeepsTheWaitLatch : Obligations.StepKeepsTheWaitLatch := by
  intro s t hlatch hstep ha
  rcases step_cases hstep with ⟨-, hpoll⟩ | ⟨hs, -, i, hi, h⟩
  · rcases pollKey_cases s with ⟨k, -, e⟩ | ⟨-, e⟩ <;> rw [e] at hpoll <;> cases hpoll
    · exact absurd ha (by simp)
    · exact hlatch ha
  · obtain ⟨x, rfl, rfl⟩ := exec_awaits_only_at_key hs h ha
    exact hi

end Sys2Proof.Machine
end

section
/-! PROOFS. The family 20_memory.md: memory as the instructions, the fetch and the host's Load see it, the draw, and the
round trip through the encoder. The laws of Sys2Proof/Laws say what the loops do; here is what the instructions make of
them. -/

namespace Sys2Proof.Machine

open Sys2Proof.Statements

/-! ## Decode after encode (R60 to R66) -/

theorem encNNN_inj {m : Nibble} {a b : Addr12} (h : encNNN m a = encNNN m b) : a = b := by
  simpa using congrArg opNNN h

/-- Family 0 without the addresses of CLS and RET is SYS (R65). -/
theorem decode0_encNNN {nnn : Addr12} (hcls : nnn ≠ 0x0E0#12) (hret : nnn ≠ 0x0EE#12) :
    decode0 (encNNN 0 nnn) = some (.sys nnn) := by
  have hc : encNNN 0 nnn ≠ 0x00E0#16 := fun h => hcls (encNNN_inj (m := 0) h)
  have hr : encNNN 0 nnn ≠ 0x00EE#16 := fun h => hret (encNNN_inj (m := 0) h)
  rw [decode0, if_neg hc, if_neg hr, opNNN_encNNN]

/-- The selectors of a row's format read back what the encoder placed there, family by family. -/
theorem decodeWord_encode {i : Instr} (h : i.wf = true) : decodeWord (encode i) = some i := by
  cases i
  case cls | ret => rfl
  case sys nnn =>
    obtain ⟨hcls, hret⟩ : nnn ≠ 0x0E0#12 ∧ nnn ≠ 0x0EE#12 := by
      simpa [Instr.wf, Instr.notClsWord, Instr.notRetWord] using h
    rw [encode, decodeWord, opFamily_encNNN]
    exact decode0_encNNN hcls hret
  case jp | call | ldI | jpV0 => simp [encode, decodeWord]
  case seImm | sneImm | ldImm | addImm | rnd => simp [encode, decodeWord]
  case seReg | sneReg | drw => simp [encode, decodeWord]
  case ldReg | orReg | andReg | xorReg | addReg | subReg | shr | subn | shl => simp [encode, decodeWord, decode8]
  case skp | sknp => simp [encode, decodeWord, decodeE]
  case ldVxDt | ldVxK | ldDtVx | ldStVx | addI | ldF | ldB | stRegs | ldRegs => simp [encode, decodeWord, decodeF]

/-- On bytes, the decoder reads the opcode whose two bytes come first, and leaves the others. -/
theorem decode_split {op : Word} {i : Instr} (h : decodeWord op = some i) (rest : List Byte) :
    decode (op.extractLsb' 8 8 :: op.extractLsb' 0 8 :: rest) = .ok (i, rest) := by
  rw [decode, wordOfBytes_split, h]

/-- Settles O2: the formats on words, and the split of an opcode into its two bytes. -/
theorem encodeThenDecode : Obligations.EncodeThenDecode := by
  intro i rest hwf
  have hword := decodeWord_encode hwf
  exact ⟨hword, decode_split hword rest⟩

/-! ## Byte accesses (R41 to R44) -/

/-- An address and the same plus the size of memory name one byte (R41). -/
theorem State.readMem_add_memSize (s : State) (k : Nat) : s.readMem (k + memSize) = s.readMem k := by
  rw [State.readMem, State.readMem, Nat.add_mod_right]

/-- Settles O28: the read-after-write law, and the reduction of addresses. -/
theorem readAfterWrite : Obligations.ReadAfterWrite := fun s a k b =>
  ⟨s.readMem_writeMem a k b, s.readMem_add_memSize k, rfl⟩

/-! ## Fetch and the Step (R43, R45, R81, R82) -/

/-- The byte at the lower address is the high byte of an opcode (R45). -/
theorem State.opcodeAt_toNat (s : State) (a : Nat) :
    (s.opcodeAt a).toNat = (s.readMem a).toNat * 256 + (s.readMem (a + 1)).toNat :=
  append_toNat ..

theorem step_fetch_out {s : State} (hs : s.status = .ready) (hp : lastFetchAddr < s.pc.toNat) :
    step s = .fault (.outOfBoundsAccess s.pc.toNat) := by
  rw [step_ready hs, if_pos hp]

/-- A ready engine runs the instruction its `PC` addresses (R82). -/
theorem step_decoded {s : State} {i : Instr} (hs : s.status = .ready) (hp : s.pc.toNat ≤ lastFetchAddr)
    (hd : decodeWord (s.opcodeAt s.pc.toNat) = some i) : step s = exec i s := by
  rw [step_ready hs, if_neg (Nat.not_lt.mpr hp), hd]

/-- Settles O8: the two sides of the fetch bound. -/
theorem fetchBoundsAndByteOrder : Obligations.FetchBoundsAndByteOrder := fun s =>
  ⟨fun hout => ⟨State.fetch_out hout, fun hs => step_fetch_out hs hout⟩,
    fun hin => ⟨_, State.fetch_ok hin, s.opcodeAt_toNat _⟩⟩

/-! ## The first Step of a loaded program (R90, R192) -/

/-- A Load that fits writes its bytes from the program origin on. -/
theorem State.load_ok {s : State} {bytes : List Byte} (h : programOrigin.toNat + bytes.length ≤ memSize) :
    s.load bytes = .ok (s.writeBytes programOrigin.toNat bytes) := by
  rw [State.load, if_neg (Nat.not_lt.mpr h)]

theorem State.writeBytes_status (s : State) (base : Nat) (bs : List Byte) :
    (s.writeBytes base bs).status = s.status := by
  rw [State.writeBytes_eq]

/-- The first two of the bytes written are the opcode at their base (R45). -/
theorem State.opcodeAt_writeBytes (s : State) (base : Nat) (hi lo : Byte) (rest : List Byte)
    (hlen : (hi :: lo :: rest).length ≤ memSize) :
    (s.writeBytes base (hi :: lo :: rest)).opcodeAt base = hi ++ lo := by
  have hfirst := s.readMem_writeBytes_inside base (hi :: lo :: rest) 0 (by simp) hlen
  have hsecond := s.readMem_writeBytes_inside base (hi :: lo :: rest) 1 (by simp) hlen
  exact congrArg₂ (· ++ ·) hfirst hsecond

/-- Settles O46: Load leaves the ready engine of Reset at the program origin, over the program's first opcode. -/
theorem bootRunsTheFirstOpcode : Obligations.BootRunsTheFirstOpcode := by
  intro s c hi lo rest i hlen hd
  have hfit : programOrigin.toNat + (hi :: lo :: rest).length ≤ memSize := by
    simp only [programOrigin, memSize, List.length_cons, BitVec.toNat_ofNat]
    omega
  refine ⟨_, State.load_ok hfit, ?_⟩
  set t := (s.resetBy c).writeBytes programOrigin.toNat (hi :: lo :: rest)
  have hready : t.status = .ready := State.writeBytes_status ..
  have hpc : t.pc = programOrigin := State.writeBytes_pc ..
  have hop : t.opcodeAt programOrigin.toNat = hi ++ lo := State.opcodeAt_writeBytes _ _ _ _ _ (by omega)
  exact step_decoded hready (by rw [hpc]; decide) (by rw [hpc, hop, hd])

/-! ## The stores and the load (R143 to R145) -/

/-- Each decimal digit of a byte is stored as its own value. -/
theorem bcdDigits_toNat (b : Byte) :
    (bcdDigits b).map BitVec.toNat = [b.toNat / 100, b.toNat / 10 % 10, b.toNat % 10] := by
  have hb := b.isLt
  simp (disch := omega) only [bcdDigits, List.map_cons, List.map_nil, BitVec.toNat_ofNat, Nat.mod_eq_of_lt]

/-- FX33 leaves digit `j` at `I + j`. -/
theorem exec_ldB_readMem {x : Nibble} {s t : State} (h : exec (.ldB x) s = .next t) (j : Nat) (hj : j < 3) :
    (t.readMem (s.i.toNat + j)).toNat = ((bcdDigits (s.readV x)).map BitVec.toNat)[j]'hj := by
  cases h
  have hread := s.readMem_writeBytes_inside s.i.toNat (bcdDigits (s.readV x)) j hj (show 3 ≤ memSize by decide)
  exact (congrArg BitVec.toNat hread).trans (List.getElem_map BitVec.toNat).symm

/-- Settles O25: the three bytes written are the digits, and no other byte is reached. -/
theorem bcdStoresThreeDigits : Obligations.BcdStoresThreeDigits := by
  intro s x
  have hdigit := exec_ldB_readMem (x := x) (s := s) rfl
  simp only [bcdDigits_toNat] at hdigit
  refine ⟨_, rfl, hdigit 0 (by decide), hdigit 1 (by decide), hdigit 2 (by decide), fun a hout => ?_, ?_⟩
  · exact State.readMem_writeBytes_outside _ _ _ _ hout
  · rw [State.writeBytes_eq]
    rfl

theorem State.indexAfter_toNat (s : State) (x : Nibble) : (s.indexAfter x).toNat =
    if s.cfg.indexIncrement = true then (s.i.toNat + x.toNat + 1) % 65536 else s.i.toNat := by
  rw [State.indexAfter]
  split
  · exact BitVec.toNat_ofNat ..
  · rfl

/-- FX55 leaves register `j` at `I + j`, for each register up to `X`. -/
theorem exec_stRegs_readMem {x j : Nibble} {s t : State} (h : exec (.stRegs x) s = .next t)
    (hj : j.toNat ≤ x.toNat) : t.readMem (s.i.toNat + j.toNat) = s.readV j := by
  have hx := x.isLt
  cases h
  rw [State.readMem_advance, State.readMem_writeI, State.readMem_storeRegs_inside _ _ _ _ (by omega) (by omega),
    BitVec.ofNat_toNat, BitVec.setWidth_eq]

/-- Settles O26: the store loop by what it reaches and what it does not. -/
theorem registersStoreToMemory : Obligations.RegistersStoreToMemory := by
  intro s x
  refine ⟨_, rfl, fun j hj => exec_stRegs_readMem rfl hj, fun a hout => ?_, s.indexAfter_toNat x, ?_⟩
  · exact State.readMem_storeRegs_outside _ _ _ _ fun j hj => hout j (Nat.lt_succ_iff.mp hj)
  · rw [State.storeRegs_eq]
    rfl

/-- Settles O27: the load loop, register by register. -/
theorem registersLoadFromMemory : Obligations.RegistersLoadFromMemory := by
  intro s x
  have hx := x.isLt
  refine ⟨_, rfl, fun r => ?_, s.indexAfter_toNat x, ?_⟩
  · rw [State.readV_advance, State.readV_writeI, State.readV_loadRegs _ _ _ (by omega)]
    simp only [Nat.lt_succ_iff]
  · rw [State.loadRegs_eq]
    rfl

/-- Settles O29: the next `PC` is `I`, where FX55 has just stored `V[0]` and `V[1]`. -/
theorem storeIsSeenByTheNextFetch : Obligations.StoreIsSeenByTheNextFetch := by
  intro s x hx hi hp
  obtain ⟨t, h⟩ : ∃ t, exec (.stRegs x) s = .next t := ⟨_, rfl⟩
  have hpc : t.pc = s.i := (List.mem_singleton.mp (pcAfterEachInstruction _ _ _ h)).trans hi.symm
  have hlast : t.pc.toNat ≤ lastFetchAddr := by
    rw [hpc, hi, lastFetchAddr]
    bv_omega
  have h0 : t.readMem s.i.toNat = s.readV 0 := exec_stRegs_readMem h (j := 0) (Nat.zero_le _)
  have h1 : t.readMem (s.i.toNat + 1) = s.readV 1 := exec_stRegs_readMem h (j := 1) hx
  exact ⟨t, h, by rw [State.fetch_ok hlast, hpc, State.opcodeAt, h0, h1]⟩

/-! ## The draw (R151 to R153) -/

/-- Where the sprite's bytes are those at `I`, covering is what the statements mean by it. -/
theorem covers_readBytes (s : State) (x0 y0 n : Nat) (px : Fin 64) (py : Fin 32) :
    covers x0 y0 (s.readBytes s.i.toNat n) px py = spriteCovers s x0 y0 n px py := by
  show _ = (decide (columnFrom x0 px < 8) && decide (rowFrom y0 py < n) &&
    (s.readMem (s.i.toNat + rowFrom y0 py)).getLsbD (7 - columnFrom x0 px))
  unfold covers
  by_cases hr : rowFrom y0 py < n
  · have hlen : rowFrom y0 py < (s.readBytes s.i.toNat n).length := by rwa [State.readBytes_length]
    rw [List.getElem?_eq_getElem hlen, State.readBytes_getElem _ _ _ _ hr]
    simp [rowCovers, hr]
  · rw [List.getElem?_eq_none (by rw [State.readBytes_length]; omega)]
    simp [hr]

section Sprite

variable (s : State) (x y n : Nibble)

/-- What DXYN draws, pixel by pixel. -/
theorem State.pixel_drawSprite (px : Fin 64) (py : Fin 32) : (s.drawSprite x y n).fb.pixel px py =
    (s.getPixel px py ^^ spriteCovers s (s.readV x).toNat (s.readV y).toNat n.toNat px py) := by
  have hn := n.isLt
  rw [State.drawSprite, Drawing.pixel_sprite _ _ _ _ (by rw [State.readBytes_length]; omega), covers_readBytes]
  rfl

/-- DXYN collides exactly where it unsets a pixel. -/
theorem State.collision_drawSprite : (s.drawSprite x y n).collision = true ↔
    ∃ px py, s.getPixel px py = true ∧ (s.drawSprite x y n).fb.pixel px py = false := by
  have hn := n.isLt
  simp only [State.pixel_drawSprite]
  rw [State.drawSprite, Drawing.collision_sprite _ _ _ _ (by rw [State.readBytes_length]; omega)]
  simp only [covers_readBytes, Bool.false_eq_true, false_or]
  refine exists_congr fun px => exists_congr fun py => ⟨fun ⟨hcov, hset⟩ => ?_, fun ⟨hset, hunset⟩ => ?_⟩
  · exact ⟨hset, by rw [show s.getPixel px py = true from hset, hcov, Bool.xor_self]⟩
  · exact ⟨by simpa [hset] using hunset, hset⟩

end Sprite

/-- A flag of the model is the statements' 1 or 0. -/
theorem flagByte_eq_oneIf {b : Bool} {c : Prop} [Decidable c] (h : b = true ↔ c) : flagByte b = oneIf c := by
  unfold flagByte oneIf
  simp only [h]

/-- Settles O31: the loops in closed form, and the collision as a pixel that went from set to unset. -/
theorem drawInvertsCoveredPixels : Obligations.DrawInvertsCoveredPixels := by
  intro s x y n
  refine ⟨_, rfl, s.pixel_drawSprite x y n, fun r => ?_, rfl⟩
  rw [State.readV_advance, State.readV_writeV, flagByte_eq_oneIf (s.collision_drawSprite x y n)]
  rfl

end Sys2Proof.Machine
end

section
/-! PROOFS. The family 30_encoding.md: the decoder against the encoder, the opcode map and the unknown space. An opcode is
its fields (`encNNN_fields` and its like), so a branch of the decoder and a row of the map need only fix the selecting
fields; the claims about rows come from giving an instruction the operands of an opcode (`Instr.withOperandsOf`). -/

namespace Sys2Proof

open Sys2Proof.Machine

/-! ## An opcode from the fields that select its row (R61) -/

theorem encNNN_of_family {op : Word} {m : Nibble} (hm : opFamily op = m) : encNNN m (opNNN op) = op := by
  rw [← hm, encNNN_fields]

theorem encXNN_of_family {op : Word} {m : Nibble} (hm : opFamily op = m) : encXNN m (opX op) (opNN op) = op := by
  rw [← hm, encXNN_fields]

theorem encXYN_of_family {op : Word} {m : Nibble} (hm : opFamily op = m) :
    encXYN m (opX op) (opY op) (opN op) = op := by
  rw [← hm, encXYN_fields]

theorem encXYN_of_minor {op : Word} {m n : Nibble} (hm : opFamily op = m) (hn : opN op = n) :
    encXYN m (opX op) (opY op) n = op := by
  rw [← hn, encXYN_of_family hm]

theorem encXNN_of_minor {op : Word} {m : Nibble} {b : Byte} (hm : opFamily op = m) (hb : opNN op = b) :
    encXNN m (opX op) b = op := by
  rw [← hb, encXNN_of_family hm]

/-! ## Encode after decode (R64 to R66) -/

theorem Instr.wf_sys_iff {nnn : Addr12} : (Instr.sys nnn).wf = true ↔ nnn ≠ 0x0E0#12 ∧ nnn ≠ 0x0EE#12 := by
  simp [Instr.wf, Instr.notClsWord, Instr.notRetWord]

/-- Family 0 names CLS and RET before SYS, so a SYS it answers has neither of their addresses (R65). -/
theorem encode_decode0 {op : Word} {i : Instr} (hm : opFamily op = 0x0#4) (h : decode0 op = some i) :
    i.wf = true ∧ encode i = op := by
  unfold decode0 at h
  split_ifs at h with hcls hret <;> cases h
  · exact ⟨rfl, hcls.symm⟩
  · exact ⟨rfl, hret.symm⟩
  · have henc := encNNN_of_family hm
    have hne : opNNN op ≠ 0x0E0#12 ∧ opNNN op ≠ 0x0EE#12 :=
      ⟨fun e => hcls (by rw [← henc, e]; rfl), fun e => hret (by rw [← henc, e]; rfl)⟩
    exact ⟨Instr.wf_sys_iff.mpr hne, henc⟩

theorem encode_decode8 {op : Word} {i : Instr} (hm : opFamily op = 0x8#4) (h : decode8 op = some i) :
    i.wf = true ∧ encode i = op := by
  unfold decode8 at h
  split at h <;> cases h <;> exact ⟨rfl, encXYN_of_minor hm (BitVec.eq_of_toNat_eq ‹_›)⟩

theorem encode_decodeE {op : Word} {i : Instr} (hm : opFamily op = 0xE#4) (h : decodeE op = some i) :
    i.wf = true ∧ encode i = op := by
  unfold decodeE at h
  split_ifs at h <;> cases h <;> exact ⟨rfl, encXNN_of_minor hm ‹_›⟩

theorem encode_decodeF {op : Word} {i : Instr} (hm : opFamily op = 0xF#4) (h : decodeF op = some i) :
    i.wf = true ∧ encode i = op := by
  unfold decodeF at h
  split_ifs at h <;> cases h <;> exact ⟨rfl, encXNN_of_minor hm ‹_›⟩

/-- The whole decoder, family by family (`h_1` is family 0); the four families that hold several rows are the lemmas
above. -/
theorem encode_decodeWord {op : Word} {i : Instr} (h : decodeWord op = some i) : i.wf = true ∧ encode i = op := by
  have hlt := family_lt op
  rw [decodeWord_by_family] at h
  split at h
  case h_1 hm => exact encode_decode0 ((opFamily_eq_iff op _).mpr hm) h
  case h_9 hm => exact encode_decode8 ((opFamily_eq_iff op _).mpr hm) h
  case h_15 hm => exact encode_decodeE ((opFamily_eq_iff op _).mpr hm) h
  case h_16 =>
    simp only [imp_false] at *
    have hm : op.toNat / 4096 = 15 := by omega
    exact encode_decodeF ((opFamily_eq_iff op _).mpr hm) h
  case h_6 hm | h_10 hm =>
    split_ifs at h with hn
    cases h
    exact ⟨rfl, encXYN_of_minor ((opFamily_eq_iff op _).mpr hm) hn⟩
  case h_2 hm | h_3 hm | h_11 hm | h_12 hm =>
    cases h
    exact ⟨rfl, encNNN_of_family ((opFamily_eq_iff op _).mpr hm)⟩
  case h_4 hm | h_5 hm | h_7 hm | h_8 hm | h_13 hm =>
    cases h
    exact ⟨rfl, encXNN_of_family ((opFamily_eq_iff op _).mpr hm)⟩
  case h_14 hm =>
    cases h
    exact ⟨rfl, encXYN_of_family ((opFamily_eq_iff op _).mpr hm)⟩

/-- Settles O3: the branches of the decoder. -/
theorem decodeThenEncode : Obligations.DecodeThenEncode := fun _ _ => encode_decodeWord

/-! ## The unknown space (R67) -/

theorem decode0_ne_none (op : Word) : decode0 op ≠ none := by
  simp [decode0, ite_eq_iff]

theorem decode8_eq_none_iff (op : Word) :
    decode8 op = none ↔ op.toNat % 16 ∈ [0x8, 0x9, 0xA, 0xB, 0xC, 0xD, 0xF] := by
  have hlt := (opN op).isLt
  rw [decode8, ← opN_toNat]
  interval_cases (opN op).toNat <;> simp

theorem decodeE_eq_none_iff (op : Word) : decodeE op = none ↔ op.toNat % 256 ∉ [0x9E, 0xA1] := by
  simp [decodeE, ite_eq_iff, opNN_eq_iff]

theorem decodeF_eq_none_iff (op : Word) : decodeF op = none ↔
    op.toNat % 256 ∉ [0x07, 0x0A, 0x15, 0x18, 0x1E, 0x29, 0x33, 0x55, 0x65] := by
  simp [decodeF, ite_eq_iff, opNN_eq_iff]

/-- Settles O4: five of the sixteen families (`h_1` is family 0) have opcodes that decode to nothing, told by their low
nibble or low byte. -/
theorem unknownSpaceIsExact : Obligations.UnknownSpaceIsExact := by
  intro op
  have hlt := family_lt op
  rw [decodeWord_by_family]
  split
  case h_1 hm => simp [hm, decode0_ne_none]
  case h_6 hm | h_10 hm => simp [hm, opN_eq_iff]
  case h_9 hm => simpa [hm] using decode8_eq_none_iff op
  case h_15 hm => simpa [hm] using decodeE_eq_none_iff op
  case h_16 =>
    simp only [imp_false] at *
    have hm : op.toNat / 4096 = 15 := by omega
    simpa [hm] using decodeF_eq_none_iff op
  case h_2 hm | h_3 hm | h_4 hm | h_5 hm | h_7 hm | h_8 hm | h_11 hm | h_12 hm | h_13 hm | h_14 hm => simp [hm]

/-! ## The rows of the opcode map (R64) -/

/-- The instruction of the same row whose operands are the fields of an opcode. -/
def Instr.withOperandsOf (op : Word) : Instr → Instr
  | .cls => .cls
  | .ret => .ret
  | .sys _ => .sys (opNNN op)
  | .jp _ => .jp (opNNN op)
  | .call _ => .call (opNNN op)
  | .seImm _ _ => .seImm (opX op) (opNN op)
  | .sneImm _ _ => .sneImm (opX op) (opNN op)
  | .seReg _ _ => .seReg (opX op) (opY op)
  | .ldImm _ _ => .ldImm (opX op) (opNN op)
  | .addImm _ _ => .addImm (opX op) (opNN op)
  | .ldReg _ _ => .ldReg (opX op) (opY op)
  | .orReg _ _ => .orReg (opX op) (opY op)
  | .andReg _ _ => .andReg (opX op) (opY op)
  | .xorReg _ _ => .xorReg (opX op) (opY op)
  | .addReg _ _ => .addReg (opX op) (opY op)
  | .subReg _ _ => .subReg (opX op) (opY op)
  | .shr _ _ => .shr (opX op) (opY op)
  | .subn _ _ => .subn (opX op) (opY op)
  | .shl _ _ => .shl (opX op) (opY op)
  | .sneReg _ _ => .sneReg (opX op) (opY op)
  | .ldI _ => .ldI (opNNN op)
  | .jpV0 _ => .jpV0 (opNNN op)
  | .rnd _ _ => .rnd (opX op) (opNN op)
  | .drw _ _ _ => .drw (opX op) (opY op) (opN op)
  | .skp _ => .skp (opX op)
  | .sknp _ => .sknp (opX op)
  | .ldVxDt _ => .ldVxDt (opX op)
  | .ldVxK _ => .ldVxK (opX op)
  | .ldDtVx _ => .ldDtVx (opX op)
  | .ldStVx _ => .ldStVx (opX op)
  | .addI _ => .addI (opX op)
  | .ldF _ => .ldF (opX op)
  | .ldB _ => .ldB (opX op)
  | .stRegs _ => .stRegs (opX op)
  | .ldRegs _ => .ldRegs (opX op)

theorem Instr.row_withOperandsOf (i : Instr) (op : Word) : (i.withOperandsOf op).row = i.row := by
  cases i <;> rfl

theorem family_of_matches_F000 {op bits : Word} {m : Nibble} (hbits : bits = encNNN m 0)
    (h : OpcodeRow.matches ⟨0xF000, bits⟩ op = true) : opFamily op = m := by
  have hand : op &&& 0xF000#16 = bits := eq_of_beq h
  rw [and_F000, hbits] at hand
  simpa using congrArg opFamily hand

theorem encXYN_of_matches_F00F {op bits : Word} {m n : Nibble} (hbits : bits = encXYN m 0 0 n)
    (h : OpcodeRow.matches ⟨0xF00F, bits⟩ op = true) : encXYN m (opX op) (opY op) n = op := by
  have hand : op &&& 0xF00F#16 = bits := eq_of_beq h
  rw [and_F00F, hbits] at hand
  exact encXYN_of_minor (by simpa using congrArg opFamily hand) (by simpa using congrArg opN hand)

theorem encXNN_of_matches_F0FF {op bits : Word} {m : Nibble} {b : Byte} (hbits : bits = encXNN m 0 b)
    (h : OpcodeRow.matches ⟨0xF0FF, bits⟩ op = true) : encXNN m (opX op) b = op := by
  have hand : op &&& 0xF0FF#16 = bits := eq_of_beq h
  rw [and_F0FF, hbits] at hand
  exact encXNN_of_minor (by simpa using congrArg opFamily hand) (by simpa using congrArg opNN hand)

/-- The pattern of a row fixes everything but the operands: an opcode that has it is that row's instruction, encoded. -/
theorem encode_withOperandsOf {i : Instr} {op : Word} (h : i.row.matches op = true) :
    encode (i.withOperandsOf op) = op := by
  cases i
  case cls | ret => exact (BitVec.eq_of_toNat_eq ((matches_FFFF op _).mp h)).symm
  case sys | jp | call | ldI | jpV0 => exact encNNN_of_family (family_of_matches_F000 (by decide) h)
  case seImm | sneImm | ldImm | addImm | rnd => exact encXNN_of_family (family_of_matches_F000 (by decide) h)
  case drw => exact encXYN_of_family (family_of_matches_F000 (by decide) h)
  case seReg | ldReg | orReg | andReg | xorReg | addReg | subReg | shr | subn | shl | sneReg =>
    exact encXYN_of_matches_F00F (by decide) h
  case skp | sknp | ldVxDt | ldVxK | ldDtVx | ldStVx | addI | ldF | ldB | stRegs | ldRegs =>
    exact encXNN_of_matches_F0FF (by decide) h

/-- The other way: an encoded instruction has its row's pattern. -/
theorem matches_encode (i : Instr) : i.row.matches (encode i) = true := by
  cases i
  case cls | ret => rfl
  case sys | jp | call | ldI | jpV0 => exact Laws.RowMatch.formatNNN _ (by decide)
  case seImm | sneImm | ldImm | addImm | rnd => exact Laws.RowMatch.formatXNN _ _ (by decide)
  case drw => exact Laws.RowMatch.formatXYN _ _ _ (by decide)
  case seReg | ldReg | orReg | andReg | xorReg | addReg | subReg | shr | subn | shl | sneReg =>
    exact Laws.RowMatch.formatXY _ _ (by decide)
  case skp | sknp | ldVxDt | ldVxK | ldDtVx | ldStVx | addI | ldF | ldB | stRegs | ldRegs =>
    exact Laws.RowMatch.formatX _ (by decide)

/-- Well formed or one of the two SYS terms whose words are CLS and RET (R65). -/
theorem Instr.wf_or_shadowed (i : Instr) : i.wf = true ∨ encode i = 0x00E0#16 ∨ encode i = 0x00EE#16 := by
  cases i
  case sys nnn =>
    by_cases hcls : nnn = 0x0E0#12
    · exact .inr (.inl (by rw [hcls]; rfl))
    · by_cases hret : nnn = 0x0EE#12
      · exact .inr (.inr (by rw [hret]; rfl))
      · exact .inl (Instr.wf_sys_iff.mpr ⟨hcls, hret⟩)
  all_goals exact .inl rfl

/-- An opcode with a row's pattern decodes to that row's instruction, but for the two words where CLS and RET go before SYS
(R65, R66). -/
theorem decodeWord_of_matches {i : Instr} {op : Word} (h : i.row.matches op = true) :
    decodeWord op = some (i.withOperandsOf op) ∨ op = 0x00E0#16 ∨ op = 0x00EE#16 := by
  have hwf := (i.withOperandsOf op).wf_or_shadowed
  rw [encode_withOperandsOf h] at hwf
  exact hwf.imp_left fun hwf => by simpa [encode_withOperandsOf h] using decodeWord_encode hwf

/-- Settles O5: a decoded opcode is its instruction encoded; an opcode with a row's pattern decodes. -/
theorem decodeFollowsOpcodeMap : Obligations.DecodeFollowsOpcodeMap := by
  refine fun op => ⟨fun i h => ?_, fun hnone i => Bool.eq_false_iff.mpr fun hmatch => ?_⟩
  · rw [← (encode_decodeWord h).2]
    exact matches_encode i
  · rcases decodeWord_of_matches hmatch with hsome | rfl | rfl
    · cases hnone.symm.trans hsome
    · cases hnone
    · cases hnone

/-- Settles O6: family 0 by its two tests; two rows with one opcode's pattern would both be what it decodes to. -/
theorem rowPrecedence : Obligations.RowPrecedence := by
  refine ⟨fun op hop => ?_, fun i j op hi hj hne => ?_⟩
  · have hfamily : op.toNat / 4096 = 0 := by omega
    have hnnn : opNNN op = op.setWidth 12 := BitVec.eq_of_toNat_eq rfl
    rw [decodeWord_by_family, hfamily, ← hnnn]
    show decode0 op = _
    unfold decode0
    split_ifs <;> rfl
  · by_contra hword
    have hdi := (decodeWord_of_matches hi).resolve_right hword
    have hdj := (decodeWord_of_matches hj).resolve_right hword
    have hsame : i.withOperandsOf op = j.withOperandsOf op := Option.some.inj (hdi.symm.trans hdj)
    exact hne (by rw [← i.row_withOperandsOf op, hsame, j.row_withOperandsOf op])

/-! ## Written opcodes (R61), and the Step on an unknown one (R67, R170) -/

/-- Settles O1: the decoder evaluated on twelve words. -/
theorem writtenOpcodesDecode : Obligations.WrittenOpcodesDecode := by
  unfold Obligations.WrittenOpcodesDecode
  decide

namespace Machine

/-- A ready engine fails on an opcode that decodes to nothing (R67). -/
theorem step_undecoded {s : State} (hs : s.status = .ready) (hp : s.pc.toNat ≤ lastFetchAddr)
    (hd : decodeWord (s.opcodeAt s.pc.toNat) = none) :
    step s = .fault (.unknownInstruction (s.opcodeAt s.pc.toNat)) := by
  rw [step_ready hs, if_neg (Nat.not_lt.mpr hp), hd]

/-- Settles O9: the opcode of the statement is the one the engine fetches. -/
theorem unknownOpcodeFails : Obligations.UnknownOpcodeFails := fun _ => step_undecoded

end Machine

end Sys2Proof
end

section
/-! PROOFS. The family 40_step_cycle.md: the Step, the ways it fails, and the operations of the host. What an instruction
can answer is said once (`exec_cases`), what a Step or a Load does to a machine once each (`Instance.stepOnce_*`,
`Instance.loadBytes_*`), and the induction over a list of host operations once (`Instance.run_induction`). -/

namespace Sys2Proof.Machine

open Sys2Proof.Statements

/-! ## The Step of a ready engine (R82) -/

/-- Settles O7: the bytes of the statement are the opcode the engine fetches. -/
theorem stepRunsTheDecodedInstruction : Obligations.StepRunsTheDecodedInstruction := fun _ _ => step_decoded

/-! ## The placed opcode (entry 5) -/

theorem tableWordBytes_16 (w : Nat) : tableWordBytes 16 w =
    [(BitVec.ofNat 16 w).extractLsb' 8 8, (BitVec.ofNat 16 w).extractLsb' 0 8] := by
  have hmod : BitVec.ofNat 16 (w % 2 ^ 16) = BitVec.ofNat 16 w := BitVec.eq_of_toNat_eq (by simp)
  rw [tableWordBytes, hmod]

/-- The bytes of a table word read back as that word (R45). -/
theorem decodeTableWord_16 (w : Nat) : decodeTableWord 16 w = decodeWord (BitVec.ofNat 16 w) := by
  rw [decodeTableWord, tableWordBytes_16, decode, wordOfBytes_split]
  cases decodeWord (BitVec.ofNat 16 w) <;> rfl

theorem State.placeAddr_le (s : State) : s.placeAddr.toNat ≤ lastFetchAddr := by
  unfold State.placeAddr
  split
  · decide
  · omega

/-- The placed word is the opcode at the place. -/
theorem State.opcodeAt_withFetchWord (s : State) (w : Nat) :
    (s.withFetchWord 16 w).opcodeAt s.placeAddr.toNat = BitVec.ofNat 16 w := by
  calc (s.withFetchWord 16 w).opcodeAt s.placeAddr.toNat
      = (s.writeBytes s.placeAddr.toNat (tableWordBytes 16 w)).opcodeAt s.placeAddr.toNat :=
        State.opcodeAt_congr rfl rfl _
    _ = wordOfBytes ((BitVec.ofNat 16 w).extractLsb' 8 8) ((BitVec.ofNat 16 w).extractLsb' 0 8) := by
        rw [tableWordBytes_16]
        exact State.opcodeAt_writeBytes _ _ _ _ _ (show 2 ≤ memSize by decide)
    _ = BitVec.ofNat 16 w := wordOfBytes_split _

/-- Settles O12: the placed state is ready at a fetchable `PC` that addresses the word. -/
theorem placedWordIsRunNext : Obligations.PlacedWordIsRunNext := by
  intro s w _
  have hop := s.opcodeAt_withFetchWord w
  rw [decodeTableWord_16, ← hop]
  exact ⟨fun i hd => step_decoded rfl s.placeAddr_le hd,
    fun hd => step_undecoded (s := s.withFetchWord 16 w) rfl s.placeAddr_le hd⟩

/-! ## The random source (R85, R133) -/

/-- Settles O23: the byte drawn is the source's next one, and where the host has scripted the source that is the head of
the script. -/
theorem randomByteAndMask : Obligations.RandomByteAndMask := by
  intro s x nn
  refine ⟨s.nextRandom, _, rfl, fun j => ?_, rfl, fun b rest hscript => ?_, fun hscript => ?_, rfl⟩
  · simp [regsWith]
  · simp [State.nextRandom, hscript]
  · simp [hscript]

/-! ## The key wait (R83) -/

/-- Settles O10: the two cases of a poll, told apart by whether a key is pressed. -/
theorem waitingStepPollsTheKeys : Obligations.WaitingStepPollsTheKeys := by
  intro s hs
  rw [step_awaiting hs, pollKey]
  refine ⟨fun k hk => ?_, fun hnone => ?_⟩
  · rw [State.lowestKey_eq_some.mpr hk]
    exact ⟨_, rfl, fun r => State.readV_writeV .., rfl⟩
  · rw [State.lowestKey_eq_none.mpr hnone]

/-! ## When an instruction fails (R100, R101, R103) -/

/-- Executing instruction `i` at `s` fails with `f`. -/
def ExecFailsWith (i : Instr) (s : State) (f : Fault) : Prop :=
  match i with
  | .sys nnn => s.cfg.sysIsNop = false ∧ f = .unknownInstruction (zextAddr nnn)
  | .call _ => s.sp.val = 16 ∧ f = .stackOverflow
  | .ret => s.sp.val = 0 ∧ f = .stackUnderflow
  | _ => False

/-- Everything an instruction can answer: a next state, or the one failure it has. -/
theorem exec_cases (i : Instr) (s : State) :
    (∃ t, exec i s = .next t ∧ ∀ f, ¬ ExecFailsWith i s f) ∨
    (∃ f, exec i s = .fault f ∧ ∀ g, ExecFailsWith i s g ↔ g = f) := by
  cases i
  case sys nnn =>
    rcases execSys_cases nnn s with ⟨hnop, e⟩ | ⟨hnop, e⟩
    · exact .inl ⟨_, e, by simp [ExecFailsWith, hnop]⟩
    · exact .inr ⟨_, e, by simp [ExecFailsWith, hnop]⟩
  case call nnn =>
    rcases execCall_cases nnn s with ⟨hsp, e⟩ | ⟨hsp, e⟩
    · exact .inl ⟨_, e, fun f hf => absurd hf.1 (Nat.ne_of_lt hsp)⟩
    · exact .inr ⟨_, e, by simp [ExecFailsWith, hsp]⟩
  case ret =>
    rcases execRet_cases s with ⟨hsp, e⟩ | ⟨hsp, e⟩
    · exact .inl ⟨_, e, fun f hf => absurd hf.1 (Nat.ne_of_gt hsp)⟩
    · exact .inr ⟨_, e, fun g => and_iff_right hsp⟩
  case ldVxK x =>
    rcases execLdVxK_cases x s with ⟨k, -, e⟩ | ⟨-, e⟩
    · exact .inl ⟨_, e, fun _ => id⟩
    · exact .inl ⟨_, e, fun _ => id⟩
  all_goals exact .inl ⟨_, rfl, fun _ => id⟩

theorem exec_fault_iff {i : Instr} {s : State} {f : Fault} : exec i s = .fault f ↔ ExecFailsWith i s f := by
  rcases exec_cases i s with ⟨t, e, hnone⟩ | ⟨g, e, hone⟩ <;> rw [e]
  · simp [hnone f]
  · simp [hone f, eq_comm]

theorem exec_ne_refused (i : Instr) (s : State) (r : Refusal) : exec i s ≠ .refused r := by
  rcases exec_cases i s with ⟨t, e, -⟩ | ⟨f, e, -⟩ <;> rw [e] <;> simp

/-! ## When a Step fails (R170, R171, R173) -/

/-- A Step ends in a next state or a failure. -/
theorem step_ne_refused (s : State) (r : Refusal) : step s ≠ .refused r := by
  cases hs : s.status with
  | awaitingInput =>
    rw [step_awaiting hs]
    rcases pollKey_cases s with ⟨k, -, e⟩ | ⟨-, e⟩ <;> rw [e] <;> simp
  | ready =>
    rw [step_ready hs]
    split
    · simp
    · split
      · exact exec_ne_refused _ _ r
      · simp

/-- The opcode of a SYS is its operand under a zero family nibble (R100). -/
theorem eq_zextAddr_of_decodeWord_sys {op : Word} {nnn : Addr12} (h : decodeWord op = some (.sys nnn)) :
    op = zextAddr nnn := by
  obtain ⟨-, rfl⟩ := encode_decodeWord h
  apply BitVec.eq_of_toNat_eq
  rw [zextAddr_toNat, encode, encNNN_toNat]
  simp

section Ready

variable {s : State} {f : Fault} (hs : s.status = .ready)

include hs

theorem failsWith_iff_of_fetch_out (hp : lastFetchAddr < s.pc.toNat) :
    FailsWith s f ↔ f = .outOfBoundsAccess s.pc.toNat := by
  simp only [lastFetchAddr] at hp
  simp [FailsWith, hs, hp, Nat.not_le.mpr hp]

theorem failsWith_iff_of_undecoded (hp : s.pc.toNat ≤ lastFetchAddr) (hd : decodeWord (fetched s) = none) :
    FailsWith s f ↔ f = .unknownInstruction (fetched s) := by
  simp only [lastFetchAddr] at hp
  simp [FailsWith, hs, hp, hd, Nat.not_lt.mpr hp]

theorem failsWith_iff_of_decoded {i : Instr} (hp : s.pc.toNat ≤ lastFetchAddr)
    (hd : decodeWord (fetched s) = some i) : FailsWith s f ↔ ExecFailsWith i s f := by
  simp only [lastFetchAddr] at hp
  cases i
  case sys nnn => simp [FailsWith, ExecFailsWith, hs, hp, hd, Nat.not_lt.mpr hp, ← eq_zextAddr_of_decodeWord_sys hd]
  all_goals simp [FailsWith, ExecFailsWith, hs, hp, hd, Nat.not_lt.mpr hp]

end Ready

/-- The failures of a Step are those of the table: of the fetch, of the decoder, or of the instruction. -/
theorem step_fault_iff {s : State} {f : Fault} : step s = .fault f ↔ FailsWith s f := by
  cases hs : s.status with
  | awaitingInput =>
    rw [step_awaiting hs]
    rcases pollKey_cases s with ⟨k, -, e⟩ | ⟨-, e⟩ <;> simp [e, FailsWith, hs]
  | ready =>
    rcases Nat.lt_or_ge lastFetchAddr s.pc.toNat with hp | hp
    · rw [step_fetch_out hs hp, failsWith_iff_of_fetch_out hs hp]
      simp [eq_comm]
    · cases hd : decodeWord (fetched s) with
      | none =>
        rw [unknownOpcodeFails s hs hp hd, failsWith_iff_of_undecoded hs hp hd]
        simp [eq_comm]
      | some i => rw [step_decoded hs hp hd, exec_fault_iff, failsWith_iff_of_decoded hs hp hd]

/-- Settles O11: a Step never refuses, and its failures are the listed ones. -/
theorem stepFailsExactlyAsListed : Obligations.StepFailsExactlyAsListed := fun s =>
  ⟨step_ne_refused s, fun _ => step_fault_iff⟩

/-! ## Tick and SetKey (R87, R88) -/

theorem countDown_toNat (t : Byte) : (countDown t).toNat = t.toNat - 1 := by
  unfold countDown
  split
  · simp [*]
  · bv_omega

theorem ticks_dt (n : Nat) (s : State) : (ticks n s).dt.toNat = s.dt.toNat - n := by
  induction n generalizing s with
  | zero => rfl
  | succ n ih =>
    rw [ticks, ih, State.tick_dt, countDown_toNat]
    omega

theorem ticks_st (n : Nat) (s : State) : (ticks n s).st.toNat = s.st.toNat - n := by
  induction n generalizing s with
  | zero => rfl
  | succ n ih =>
    rw [ticks, ih, State.tick_st, countDown_toNat]
    omega

theorem ticks_eq (n : Nat) (s : State) : ticks n s = { s with dt := (ticks n s).dt, st := (ticks n s).st } := by
  induction n generalizing s with
  | zero => rfl
  | succ n ih => exact ih s.tick

/-- Settles O43: each timer, and the frame, by induction on the number of ticks. -/
theorem ticksCountDownToZero : Obligations.TicksCountDownToZero := fun n s => ⟨ticks_dt n s, ticks_st n s, ticks_eq n s⟩

/-- Settles O44: the key array is written at one index. -/
theorem setKeySetsOneKey : Obligations.SetKeySetsOneKey := fun s k j p => ⟨s.isPressed_setKey k j p, rfl⟩

/-! ## Load (R90) -/

theorem State.load_full {s : State} {bytes : List Byte} (h : memSize < programOrigin.toNat + bytes.length) :
    s.load bytes = .error (.outOfBoundsAccess (programOrigin.toNat + bytes.length - 1)) := by
  rw [State.load, if_pos h]

/-- A Load that succeeded wrote its bytes. -/
theorem State.load_eq_ok {s t : State} {bytes : List Byte} (h : s.load bytes = .ok t) :
    t = s.writeBytes programOrigin.toNat bytes := by
  rw [State.load] at h
  split at h
  · cases h
  · cases h
    rfl

/-- Settles O45: the bytes are written from the program origin on, and no address of them wraps. -/
theorem loadPlacesTheProgram : Obligations.LoadPlacesTheProgram := by
  refine fun s bytes => ⟨State.load_full, fun hfit => ⟨_, State.load_ok hfit, fun j hj => ?_, fun a ha hout => ?_, ?_⟩⟩
  · exact s.readMem_writeBytes_inside 0x200 bytes j hj (by simp only [memSize]; omega)
  · refine s.readMem_writeBytes_outside 0x200 bytes a fun j hj => ?_
    simp only [memSize]
    omega
  · exact State.writeBytes_eq ..

/-! ## One operation on a machine (R84, R86, R95, R175) -/

namespace Instance

section StepAndLoad

variable {m : Instance} {f : Fault}

/-- A failed machine executes no Step. -/
theorem stepOnce_failed (h : m.failure = some f) : m.stepOnce = (m, .faulted f) := by
  rw [stepOnce, h]

theorem stepOnce_next {s : State} (h : m.failure = none) (hstep : step m.state = .next s) :
    m.stepOnce = (⟨s, none⟩, .ok s.status) := by
  rw [stepOnce, h, hstep]

/-- A failing Step leaves the state (R172). -/
theorem stepOnce_fault (h : m.failure = none) (hstep : step m.state = .fault f) :
    m.stepOnce = (⟨m.state, some f⟩, .err f) := by
  rw [stepOnce, h, hstep]

/-- A failed machine executes no Load. -/
theorem loadBytes_failed (h : m.failure = some f) (bytes : List Byte) : m.loadBytes bytes = (m, .faulted f) := by
  rw [loadBytes, h]

/-- The state after a Step is as before, or what the Step answers. -/
theorem stepOnce_state_cases (m : Instance) :
    m.stepOnce.1.state = m.state ∨ step m.state = .next m.stepOnce.1.state := by
  unfold stepOnce
  split
  · exact .inl rfl
  · split
    · exact .inr ‹_›
    · exact .inl rfl
    · exact .inl rfl

/-- The state after a Load is as before, or has the bytes written. -/
theorem loadBytes_state_cases (m : Instance) (bytes : List Byte) :
    (m.loadBytes bytes).1.state = m.state ∨
    (m.loadBytes bytes).1.state = m.state.writeBytes programOrigin.toNat bytes := by
  unfold loadBytes
  split
  · exact .inl rfl
  · split
    · exact .inr (State.load_eq_ok ‹_›)
    · exact .inl rfl

end StepAndLoad

/-- What holds of a machine and is kept by each operation the host issues holds after all of them. -/
theorem run_induction {P : Instance → Prop} {ops : List HostOp} {m : Instance} (h : P m)
    (hkeep : ∀ op ∈ ops, ∀ u, P u → P (u.issue op).1) : P (m.run ops) := by
  induction ops generalizing m with
  | nil => exact h
  | cons op ops ih =>
    exact ih (hkeep op List.mem_cons_self m h) fun o ho => hkeep o (List.mem_cons_of_mem _ ho)

end Instance

/-! ## The invariant under the host's operations (R80, R16) -/

theorem State.inv_resetBy (s : State) (c : Config) : (s.resetBy c).Inv where
  mem := Memory.wf_nil c
  pc := show programOrigin.toNat ≤ 0x10FE by decide
  stack := fun j hj => absurd hj (Nat.not_lt_zero j.val)
  wait := nofun

theorem State.Inv.tick {s : State} (h : s.Inv) : s.tick.Inv := ⟨h.mem, h.pc, h.stack, h.wait⟩

theorem State.Inv.setKey {s : State} (h : s.Inv) (k : Nibble) (p : Bool) : (s.setKey k p).Inv :=
  ⟨h.mem, h.pc, h.stack, h.wait⟩

theorem State.Inv.writeBytes {s : State} (h : s.Inv) (base : Nat) (bs : List Byte) : (s.writeBytes base bs).Inv := by
  have hmem := State.writeBytes_keeps_wf base bs h.mem
  rw [State.writeBytes_eq] at hmem ⊢
  exact ⟨hmem, h.pc, h.stack, h.wait⟩

/-- Every host operation keeps the invariant. -/
theorem Instance.issue_keeps_inv {m : Instance} (h : m.state.Inv) (op : HostOp) : (m.issue op).1.state.Inv := by
  cases op with
  | reset c => exact m.state.inv_resetBy c
  | load bytes =>
    rcases m.loadBytes_state_cases bytes with e | e <;> rw [Instance.issue, e]
    · exact h
    · exact h.writeBytes _ _
  | step =>
    rcases m.stepOnce_state_cases with e | e
    · rw [Instance.issue, e]
      exact h
    · exact stepKeepsTheInvariant _ _ h e
  | tick => exact h.tick
  | setKey k p => exact h.setKey k p
  | getPixel | getDelay | getSound | readState => exact h

/-- Settles O42: by induction on the operations. -/
theorem everyHostRunKeepsTheInvariant : Obligations.EveryHostRunKeepsTheInvariant := fun _ _ h =>
  Instance.run_induction (P := fun u => u.state.Inv) h fun op _ _ hu => Instance.issue_keeps_inv hu op

/-! ## What the host changes beside Step, Load and Reset: timers and keys -/

/-- `t` differs from `s` in the timers and the keys only. -/
def State.SameButTimersKeys (s t : State) : Prop := t = { s with dt := t.dt, st := t.st, key := t.key }

namespace State.SameButTimersKeys

variable {s t u : State}

theorem refl (s : State) : s.SameButTimersKeys s := rfl

theorem trans (hst : s.SameButTimersKeys t) (htu : t.SameButTimersKeys u) : s.SameButTimersKeys u := by
  unfold SameButTimersKeys at hst htu
  rw [htu, hst]
  rfl

/-- Neither timers nor keys decide whether a Step fails. -/
theorem failsWith_iff (h : s.SameButTimersKeys t) (f : Fault) : FailsWith t f ↔ FailsWith s f := by
  unfold SameButTimersKeys at h
  rw [h]
  rfl

/-- Neither timers nor keys decide whether the engine is at a jump to itself. -/
theorem atSelfJump_eq (h : s.SameButTimersKeys t) : t.atSelfJump = s.atSelfJump := by
  unfold SameButTimersKeys at h
  rw [h]
  exact State.atSelfJump_congr rfl rfl rfl rfl

end State.SameButTimersKeys

namespace Instance

/-- `u` has the failure of `m` and differs from it in the timers and the keys only. -/
def SameButTimersKeys (m u : Instance) : Prop := u.failure = m.failure ∧ m.state.SameButTimersKeys u.state

theorem SameButTimersKeys.refl (m : Instance) : m.SameButTimersKeys m := ⟨rfl, .refl _⟩

theorem SameButTimersKeys.trans {m u w : Instance} (hmu : m.SameButTimersKeys u) (huw : u.SameButTimersKeys w) :
    m.SameButTimersKeys w :=
  ⟨huw.1.trans hmu.1, hmu.2.trans huw.2⟩

/-- Beside Reset, only Step and Load can change more than timers and keys. -/
theorem issue_cases (m : Instance) {op : HostOp} (hreset : ∀ c, op ≠ .reset c) :
    op = .step ∨ (∃ bytes, op = .load bytes) ∨ m.SameButTimersKeys (m.issue op).1 := by
  cases op with
  | reset c => exact absurd rfl (hreset c)
  | load bytes => exact .inr (.inl ⟨bytes, rfl⟩)
  | step => exact .inl rfl
  | tick | setKey k p => exact .inr (.inr ⟨rfl, rfl⟩)
  | getPixel | getDelay | getSound | readState => exact .inr (.inr (.refl m))

end Instance

/-! ## A failure stands until Reset (R95, R172, R175) -/

/-- After a failure the host changes timers and keys only, short of a Reset. -/
theorem Instance.run_failed {m : Instance} {f : Fault} {ops : List HostOp} (h : m.failure = some f)
    (hops : ∀ op ∈ ops, ∀ c, op ≠ .reset c) : m.SameButTimersKeys (m.run ops) := by
  refine Instance.run_induction (.refl m) fun op hop u hsame => ?_
  have hu : u.failure = some f := hsame.1.trans h
  rcases u.issue_cases (hops op hop) with rfl | ⟨bytes, rfl⟩ | hidle
  · rwa [Instance.issue, Instance.stepOnce_failed hu]
  · rwa [Instance.issue, Instance.loadBytes_failed hu]
  · exact hsame.trans hidle

/-- Settles O49: the failing Step leaves the state, and what the host changes after it does not bear on the failure. -/
theorem failureStandsUntilReset : Obligations.FailureStandsUntilReset := by
  intro m f ops hnone hstep hops
  have hissue : m.issue .step = (⟨m.state, some f⟩, .err f) := Instance.stepOnce_fault hnone hstep
  refine ⟨hissue, ?_⟩
  rw [hissue]
  rintro u rfl
  obtain ⟨hfail, hsame⟩ := Instance.run_failed (m := ⟨m.state, some f⟩) rfl hops
  have hagain := step_fault_iff.mpr ((hsame.failsWith_iff f).mpr (step_fault_iff.mp hstep))
  exact ⟨hfail, hagain, hsame, fun _ => rfl⟩

/-! ## The end of a run (R94, R102) -/

/-- An opcode decodes to a well-formed instruction exactly when it is that instruction encoded. -/
theorem decodeWord_eq_some_iff {op : Word} {i : Instr} (h : i.wf = true) : decodeWord op = some i ↔ op = encode i :=
  ⟨fun hd => (encode_decodeWord hd).2.symm, fun e => e ▸ decodeWord_encode h⟩

/-- At a fetchable `PC`, the opcode of a jump to it is 0x1000 + `PC`. -/
theorem decodeWord_eq_jp_iff {op a : Word} (ha : a.toNat ≤ lastFetchAddr) :
    decodeWord op = some (.jp (a.setWidth 12)) ↔ op.toNat = 0x1000 + a.toNat := by
  have htarget : (a.setWidth 12).toNat = a.toNat := by
    simp only [lastFetchAddr] at ha
    rw [BitVec.toNat_setWidth]
    omega
  rw [decodeWord_eq_some_iff rfl, ← BitVec.toNat_inj, encode, encNNN_toNat, htarget]
  rfl

namespace Instance

theorem ended_iff {m : Instance} : m.ended = true ↔ m.failure = none ∧ m.state.atSelfJump = true := by
  simp [ended]

theorem ended_iff_opcode {m : Instance} : m.ended = true ↔ m.failure = none ∧ m.state.status = .ready ∧
    m.state.pc.toNat ≤ lastFetchAddr ∧ (fetched m.state).toNat = 0x1000 + m.state.pc.toNat := by
  rw [ended_iff, State.atSelfJump_iff]
  refine and_congr_right fun _ => and_congr_right fun _ => and_congr_right fun hp => ?_
  exact decodeWord_eq_jp_iff hp

/-- Neither timers nor keys decide whether a run is at its end. -/
theorem SameButTimersKeys.ended_eq {m u : Instance} (h : m.SameButTimersKeys u) : u.ended = m.ended := by
  rw [ended, ended, h.1, h.2.atSelfJump_eq]

/-- A Step at the end of a run reports `Ready` and leaves the machine. -/
theorem stepOnce_ended {m : Instance} (h : m.ended = true) : m.stepOnce = (m, .ok .ready) := by
  obtain ⟨hnone, hjump⟩ := ended_iff.mp h
  obtain ⟨state, failure⟩ := m
  subst hnone
  rw [stepOnce_next rfl (step_atSelfJump hjump), (State.atSelfJump_iff.mp hjump).1]

/-- From its end on the host changes timers and keys only, short of a Reset or Load. -/
theorem run_ended {m : Instance} {ops : List HostOp} (h : m.ended = true)
    (hops : ∀ op ∈ ops, (∀ c, op ≠ .reset c) ∧ ∀ bytes, op ≠ .load bytes) : m.SameButTimersKeys (m.run ops) := by
  refine run_induction (.refl m) fun op hop u hsame => ?_
  obtain ⟨hreset, hload⟩ := hops op hop
  rcases u.issue_cases hreset with rfl | ⟨bytes, rfl⟩ | hidle
  · rwa [issue, stepOnce_ended (hsame.ended_eq.trans h)]
  · exact absurd rfl (hload bytes)
  · exact hsame.trans hidle

/-- Steps alone leave an ended machine as it is. -/
theorem run_steps_ended {m : Instance} {ops : List HostOp} (h : m.ended = true) (hops : ∀ op ∈ ops, op = .step) :
    m.run ops = m := by
  refine run_induction (P := fun u => u = m) rfl fun op hop u hu => ?_
  rw [hops op hop, hu]
  exact congrArg Prod.fst (stepOnce_ended h)

end Instance

/-- Settles O50: the end by the value of its opcode, and the runs from it by induction on the operations. -/
theorem endOfRunIsAnIdleSelfJump : Obligations.EndOfRunIsAnIdleSelfJump := by
  refine ⟨fun m => Instance.ended_iff_opcode, fun m ops h hops => ?_⟩
  have hsame := Instance.run_ended h hops
  exact ⟨Instance.stepOnce_ended h, hsame.ended_eq.trans h, hsame.2, Instance.run_steps_ended h⟩

end Sys2Proof.Machine
end

section
/-! PROOFS. The family 41_flow.md, without the stack (above): SYS and RET, the jumps, and the skips, whose one rule is
`skipsIf_of_exec`. -/

namespace Sys2Proof.Machine

open Sys2Proof.Statements

/-! ## SYS and RET (R100, R101) -/

/-- Settles O13: the two settings of `SYS_IS_NOP`; the failing one has the opcode of `zextAddr`. -/
theorem sysByConfiguration : Obligations.SysByConfiguration := by
  intro s nnn
  refine ⟨fun hnop => ?_, fun hnop => ⟨zextAddr nnn, zextAddr_toNat nnn, exec_fault_iff.mpr ⟨hnop, rfl⟩⟩⟩
  rcases execSys_cases nnn s with ⟨-, hnext⟩ | ⟨hfails, -⟩
  · exact hnext
  · simp [hnop] at hfails

/-- Settles O14: the two cases of RET, told apart by `SP`. -/
theorem retPopsTheReturnAddress : Obligations.RetPopsTheReturnAddress := by
  intro s
  refine ⟨fun hempty => exec_fault_iff.mpr ⟨hempty, rfl⟩, fun j hj => ?_⟩
  obtain ⟨hs, hnext⟩ := (execRet_cases s).resolve_right fun ⟨hempty, _⟩ => by omega
  have htop : s.sp.val - 1 = j.val := by omega
  exact ⟨_, hnext, getElem_congr_idx htop, htop, rfl⟩

/-! ## The jumps (R102, R104) -/

/-- A 12-bit address plus a byte stays below 65536. -/
theorem zextAddr_add_zextByte_toNat (nnn : Addr12) (b : Byte) :
    (zextAddr nnn + zextByte b).toNat = nnn.toNat + b.toNat := by
  have hb : (zextByte b).toNat = b.toNat := BitVec.toNat_setWidth_of_le (by decide)
  rw [BitVec.toNat_add_of_lt (by rw [zextAddr_toNat, hb]; omega), zextAddr_toNat, hb]

/-- Settles O15: both jumps are `State.jump`, to a target whose value is the statement's. -/
theorem jumpsSetPc : Obligations.JumpsSetPc := fun s nnn =>
  ⟨⟨s.jump (zextAddr nnn), rfl, zextAddr_toNat nnn, rfl⟩,
    ⟨s.jump (zextAddr nnn + zextByte (s.readV 0)), rfl, zextAddr_add_zextByte_toNat nnn (s.readV 0), rfl⟩⟩

/-! ## The skips (R105 to R108, R160, R161) -/

/-- An instruction that answers `skipIf b` skips under the condition that `b` decides. -/
theorem skipsIf_of_exec {i : Instr} {s : State} {b : Bool} {c : Prop} (h : exec i s = .next (s.skipIf b))
    (hb : b = true ↔ c) : SkipsIf i s c := by
  refine ⟨fun hc => ?_, fun hc => ?_⟩
  · rw [h, hb.mpr hc]
    rfl
  · rw [h, Bool.eq_false_iff.mpr (mt hb.mp hc)]
    rfl

/-- The key a byte names is the one at its value modulo 16 (D20). -/
theorem State.key_getElem?_mod (s : State) (b : Byte) :
    s.key.toList[b.toNat % 16]? = some (s.isPressed (lowNibble b)) := by
  have hcode : (lowNibble b).toNat = b.toNat % 16 := BitVec.extractLsb'_toNat 0 4 b
  rw [← hcode, State.isPressed]
  simp

/-- Settles O18: every skip answers `skipIf` of a test, and each test decides its condition. -/
theorem skipsTestTheirCondition : Obligations.SkipsTestTheirCondition := by
  intro s x y nn
  refine ⟨skipsIf_of_exec rfl beq_iff_eq, skipsIf_of_exec rfl bne_iff_ne, skipsIf_of_exec rfl beq_iff_eq,
    skipsIf_of_exec rfl bne_iff_ne, skipsIf_of_exec rfl ?_, skipsIf_of_exec rfl ?_⟩
  · rw [State.key_getElem?_mod, Option.some_inj]
  · rw [State.key_getElem?_mod, Option.some_inj, Bool.not_eq_true']

end Sys2Proof.Machine
end

section
/-! PROOFS. The family 42_alu.md, without the random byte (above). Every instruction here ends in one register write, or in
a result and then its flag (R121); what is left of each is the value written. -/

namespace Sys2Proof.Machine

open Sys2Proof.Statements

/-! ## One register, or a result and its flag (R121) -/

section Writes

variable {i : Instr} {s : State} {x : Nibble} {b b' f f' : Byte}

theorem setsRegs_of_writeV (h : exec i s = .next (s.writeV x b).advance) (hb : b = b') :
    SetsRegs i s (regsWith s x b') := by
  subst hb
  exact ⟨_, h, (s.readV_writeV x · b), rfl⟩

theorem setsRegs_of_writeFlagged (h : exec i s = .next (s.writeFlagged x b f).advance) (hb : b = b') (hf : f = f') :
    SetsRegs i s (regsWithFlag s x b' f') := by
  subst hb hf
  exact ⟨_, h, (s.readV_writeFlagged x · b f), rfl⟩

end Writes

/-! ## Sums and differences as naturals modulo 256 (R120) -/

theorem eq_ofNat_of_toNat_eq {b : Byte} {n : Nat} (h : b.toNat = n) : b = BitVec.ofNat 8 n :=
  (BitVec.toNat_eq_nat.mp h).2

theorem sub_eq_ofNat (a b : Byte) : a - b = BitVec.ofNat 8 ((a.toNat + 256 - b.toNat) % 256) := by
  have hb := b.isLt
  refine eq_ofNat_of_toNat_eq ((BitVec.toNat_sub a b).trans (congrArg (· % 256) ?_))
  omega

theorem carryFlag_eq_oneIf (a b : Byte) : carryFlag a b = oneIf (255 < a.toNat + b.toNat) :=
  flagByte_eq_oneIf decide_eq_true_iff

theorem noBorrowFlag_eq_oneIf (a b : Byte) : noBorrowFlag a b = oneIf (b.toNat ≤ a.toNat) :=
  flagByte_eq_oneIf decide_eq_true_iff

/-- Settles O21: each is a result and then its flag, with the operands read before either is written. -/
theorem addAndSubtractWithFlag : Obligations.AddAndSubtractWithFlag := by
  rintro s x y _ _ rfl rfl
  exact ⟨setsRegs_of_writeFlagged rfl (eq_ofNat_of_toNat_eq (BitVec.toNat_add ..)) (carryFlag_eq_oneIf ..),
    setsRegs_of_writeFlagged rfl (sub_eq_ofNat ..) (noBorrowFlag_eq_oneIf ..),
    setsRegs_of_writeFlagged rfl (sub_eq_ofNat ..) (noBorrowFlag_eq_oneIf ..)⟩

/-! ## Shifts by one (R130, R132) -/

theorem State.shiftSource_toNat (s : State) (x y : Nibble) : (s.shiftSource x y).toNat =
    if s.cfg.shiftUsesVy = true then (s.readV y).toNat else (s.readV x).toNat :=
  apply_ite ..

theorem shiftRight_one_toNat (a : Byte) : (a >>> 1).toNat = a.toNat / 2 :=
  (BitVec.toNat_ushiftRight ..).trans (Nat.shiftRight_one _)

theorem shiftLeft_one_toNat (a : Byte) : (a <<< 1).toNat = 2 * a.toNat % 256 := by
  rw [BitVec.toNat_shiftLeft, Nat.shiftLeft_eq, Nat.mul_comm]

theorem flagByte_toNat (c : Bool) : (flagByte c).toNat = c.toNat := by
  cases c <;> rfl

/-- The bit shifted out to the right is the remainder by 2. -/
theorem shiftRightFlag_toNat (a : Byte) : (shiftRightFlag a).toNat = a.toNat % 2 := by
  rw [shiftRightFlag, flagByte_toNat, BitVec.getLsbD, Nat.toNat_testBit, Nat.pow_zero, Nat.div_one]

/-- The bit shifted out to the left is bit 7, the highest of a byte. -/
theorem shiftLeftFlag_toNat (a : Byte) : (shiftLeftFlag a).toNat = a.toNat / 128 := by
  have ha := a.isLt
  rw [shiftLeftFlag, flagByte_toNat, BitVec.getLsbD, Nat.toNat_testBit]
  omega

/-- Settles O22: the source is the register the configuration selects, and its shift and lost bit are a quotient and a
remainder. -/
theorem shiftsBothQuirks : Obligations.ShiftsBothQuirks := by
  intro s x y a ha
  obtain rfl := ha.trans (s.shiftSource_toNat x y).symm
  exact ⟨setsRegs_of_writeFlagged rfl (eq_ofNat_of_toNat_eq (shiftRight_one_toNat _))
      (eq_ofNat_of_toNat_eq (shiftRightFlag_toNat _)),
    setsRegs_of_writeFlagged rfl (eq_ofNat_of_toNat_eq (shiftLeft_one_toNat _))
      (eq_ofNat_of_toNat_eq (shiftLeftFlag_toNat _))⟩

/-! ## Loads and the operations without a flag (R122 to R127, R164) -/

/-- Settles O19: three writes of one register. -/
theorem loadsCopyIntoRegister : Obligations.LoadsCopyIntoRegister := fun _ _ _ _ =>
  ⟨setsRegs_of_writeV rfl rfl, setsRegs_of_writeV rfl rfl, setsRegs_of_writeV rfl rfl⟩

/-- Settles O20: one write each; the bytes of the bitwise ones are given by their bits. -/
theorem flaglessArithmetic : Obligations.FlaglessArithmetic := fun s x y _ =>
  ⟨setsRegs_of_writeV rfl (eq_ofNat_of_toNat_eq (BitVec.toNat_add ..)),
    s.readV x ||| s.readV y, s.readV x &&& s.readV y, s.readV x ^^^ s.readV y,
    setsRegs_of_writeV rfl rfl, setsRegs_of_writeV rfl rfl, setsRegs_of_writeV rfl rfl,
    fun _ _ => ⟨BitVec.getLsbD_or, BitVec.getLsbD_and, BitVec.getLsbD_xor⟩⟩

end Sys2Proof.Machine
end

section
/-! PROOFS. The family 43_index_memory.md, without the accesses to memory (above): ANNN, FX1E and FX29 end in one write
of `I` (`writesI_of_exec`); what is left of each is the value of the address written. -/

namespace Sys2Proof.Machine

/-! ## The one rule of the three instructions -/

theorem writesI_of_exec {i : Instr} {s : State} {a : Word} {n : Nat} (h : exec i s = .next (s.writeI a).advance)
    (ha : a.toNat = n) : ∃ t, exec i s = .next t ∧ t.i.toNat = n ∧ t = { s with i := t.i, pc := s.pc + 2 } :=
  ⟨_, h, ha, rfl⟩

/-! ## The addresses by value -/

theorem zextByte_toNat (b : Byte) : (zextByte b).toNat = b.toNat :=
  BitVec.toNat_setWidth_of_le (by decide)

theorem lowNibble_toNat (b : Byte) : (lowNibble b).toNat = b.toNat % 16 :=
  BitVec.extractLsb'_toNat 0 4 b

/-- FX1E wraps at 65536 and not at the end of memory (D16). -/
theorem add_zextByte_toNat (a : Word) (b : Byte) : (a + zextByte b).toNat = (a.toNat + b.toNat) % 65536 := by
  rw [BitVec.toNat_add, zextByte_toNat]

/-- The font lies below `PROGRAM_ORIGIN`, so no glyph's address wraps (R28). -/
theorem State.glyphAddr_toNat (s : State) (d : Nibble) :
    (s.glyphAddr d).toNat = s.cfg.fontBase.val + 5 * d.toNat := by
  have hbase := s.cfg.fontBase.isLt
  exact (BitVec.toNat_ofNat ..).trans (Nat.mod_eq_of_lt (show s.cfg.fontBase.val + 5 * d.toNat < 2 ^ 16 by omega))

/-- Settles O24: three writes of `I`, to a zero-extended address, a sum modulo 65536 and the address of a glyph. -/
theorem indexRegisterWrites : Obligations.IndexRegisterWrites := fun s x nnn =>
  ⟨writesI_of_exec rfl (zextAddr_toNat nnn), writesI_of_exec rfl (add_zextByte_toNat s.i (s.readV x)),
    writesI_of_exec rfl (by rw [State.glyphAddr_toNat, lowNibble_toNat])⟩

end Sys2Proof.Machine
end

section
/-! PROOFS. The family 44_display.md. What DXYN does pixel by pixel, and its flag, is `drawInvertsCoveredPixels` (above);
here is what follows from it for two draws and for one byte at the right edge. -/

namespace Sys2Proof.Machine

open Sys2Proof.Statements

/-- Settles O30: the grid is the blank one, and the rest of the state is untouched. -/
theorem clearUnsetsEveryPixel : Obligations.ClearUnsetsEveryPixel := fun _ =>
  ⟨_, rfl, Framebuffer.pixel_blank, rfl⟩

/-! ## A condition as 1 or 0 -/

section OneIf

variable {c : Prop} [Decidable c]

theorem oneIf_eq_one_iff : oneIf c = 1#8 ↔ c := by
  by_cases h : c <;> simp [oneIf, h]

theorem oneIf_of_not (h : ¬ c) : oneIf c = 0#8 := if_neg h

theorem oneIf_eq_zero_or_one : oneIf c = 0#8 ∨ oneIf c = 1#8 :=
  (em c).symm.imp oneIf_of_not oneIf_eq_one_iff.mpr

end OneIf

/-! ## The same sprite twice (R154) -/

/-- A draw writes neither memory nor `I`, so a second draw finds the same sprite, whatever the registers. -/
theorem spriteCovers_after_drw {x y n : Nibble} {s t : State} (h : exec (.drw x y n) s = .next t)
    (v : Vector Byte 16) (x0 y0 m : Nat) (px : Fin 64) (py : Fin 32) :
    spriteCovers { t with v := v } x0 y0 m px py = spriteCovers s x0 y0 m px py := by
  cases h
  rfl

/-- Settles O32: both draws invert the same pixels, so the second one undoes the first and unsets what the first set. -/
theorem drawTwiceRestores : Obligations.DrawTwiceRestores := by
  intro s x y n
  obtain ⟨t, ht, hfirst, -, -⟩ := drawInvertsCoveredPixels s x y n
  obtain ⟨u, hu, hsecond, hregs, -⟩ := drawInvertsCoveredPixels { t with v := s.v } x y n
  have hback (px py) : u.getPixel px py = s.getPixel px py := by
    calc u.getPixel px py
      _ = (t.getPixel px py ^^ spriteCovers s (s.readV x).toNat (s.readV y).toNat n.toNat px py) :=
        (hsecond px py).trans (congrArg _ (spriteCovers_after_drw ht ..))
      _ = s.getPixel px py := by rw [hfirst, Bool.xor_assoc, Bool.xor_self, Bool.xor_false]
  have hflag : u.readV 0xF#4 = oneIf (∃ px py, t.getPixel px py = true ∧ u.getPixel px py = false) :=
    (hregs 0xF#4).trans (if_pos rfl)
  refine ⟨t, u, ht, hu, Framebuffer.ext_pixel hback, ?_, hflag ▸ oneIf_eq_zero_or_one⟩
  rw [hflag, oneIf_eq_one_iff]
  simp only [hback, and_comm]

/-! ## One full byte at the right edge (R155) -/

theorem rowCovers_fullByte (x0 : Nat) (px : Fin 64) : rowCovers x0 0xFF#8 8 px = decide (columnFrom x0 px < 8) := by
  have hbit : (0xFF#8).getLsbD (7 - columnFrom x0 px) = true :=
    BitVec.getLsbD_allOnes.trans (decide_eq_true (by omega))
  rw [rowCovers, hbit, Bool.and_true]

/-- A sprite of the one byte 0xFF covers eight pixels of its row, counted around the grid. -/
theorem spriteCovers_fullByte {s : State} (hbyte : s.readMem s.i.toNat = 0xFF#8) (x0 y0 : Nat) (px : Fin 64)
    (py : Fin 32) : spriteCovers s x0 y0 1 px py = true ↔ py = wrapY y0 ∧ columnFrom x0 px < 8 := by
  have hbytes : s.readBytes s.i.toNat 1 = [0xFF#8] := congrArg (fun b => [b]) hbyte
  rw [← covers_readBytes, hbytes, covers_cons, rowCovers_fullByte]
  by_cases hrow : py = wrapY y0
  · simp [hrow]
  · simp [hrow, covers]

theorem eq_wrapY_zero_iff (py : Fin 32) : py = wrapY 0 ↔ py.val = 0 :=
  Fin.ext_iff

theorem columnFrom_sixty_lt_eight (px : Fin 64) : columnFrom 60 px < 8 ↔ 60 ≤ px.val ∨ px.val ≤ 3 := by
  have := px.isLt
  unfold columnFrom
  omega

/-- Settles O33: on an empty display the pixels set are those the byte covers, and none is unset. -/
theorem drawWrapsAtTheRightEdge : Obligations.DrawWrapsAtTheRightEdge := by
  intro s x y hempty hx hy hbyte
  obtain ⟨t, ht, hpixel, hregs, -⟩ := drawInvertsCoveredPixels s x y 1#4
  refine ⟨t, ht, (hregs 0xF#4).trans ((if_pos rfl).trans (oneIf_of_not ?_)), fun px py => ?_⟩
  · simp [hempty]
  · have hset : t.getPixel px py = spriteCovers s 60 0 1 px py := by
      rw [hpixel, hempty, Bool.false_xor, hx, hy]
      rfl
    rw [hset, spriteCovers_fullByte hbyte, eq_wrapY_zero_iff, columnFrom_sixty_lt_eight]

end Sys2Proof.Machine
end

section
/-! PROOFS. The family 45_keypad_timers.md, without the skips (41_flow.md) and the poll of a waiting engine (R83, above).
FX0A has two outcomes, told apart by `lowestKey`; FX15 and FX18 replace one counter each. -/

namespace Sys2Proof.Machine

open Sys2Proof.Statements

/-! ## FX0A by the keys it finds (R162) -/

theorem exec_ldVxK_of_leastPressed {s : State} {k : Nibble} (hk : LeastPressed s k) (x : Nibble) :
    exec (.ldVxK x) s = .next (s.writeV x (keyByte k)).advance := by
  change execLdVxK x s = _
  rw [execLdVxK, State.lowestKey_eq_some.mpr hk]

theorem exec_ldVxK_of_no_key {s : State} (hnone : ∀ k, s.isPressed k = false) (x : Nibble) :
    exec (.ldVxK x) s = .next { s with waitReg := x, status := .awaitingInput } := by
  change execLdVxK x s = _
  rw [execLdVxK, State.lowestKey_eq_none.mpr hnone]

/-- Settles O34: a key found is one register write, and without one the wait begins. -/
theorem keyInstructionTakesOrWaits : Obligations.KeyInstructionTakesOrWaits := fun _ x =>
  ⟨fun _ hk => setsRegs_of_writeV (exec_ldVxK_of_leastPressed hk x) rfl, fun hnone => exec_ldVxK_of_no_key hnone x⟩

/-! ## The timers (R165, R166) -/

/-- The sound output follows the sound timer alone. -/
theorem State.soundOn_iff {s : State} : s.soundOn = true ↔ s.st ≠ 0#8 :=
  bne_iff_ne

/-- Settles O35: one counter takes the register's byte, and the sound output is read off the counter just written. -/
theorem timersAreOverwritten : Obligations.TimersAreOverwritten := fun _ _ =>
  ⟨⟨_, rfl, rfl, rfl⟩, ⟨_, rfl, rfl, State.soundOn_iff, rfl⟩⟩

end Sys2Proof.Machine
end

section
/-! PROOFS. The family 70_reset_and_hazards.md: the invariant of Safety.lean at the state Reset leaves (R190), where its
inductions begin. -/

namespace Sys2Proof.Machine

open Sys2Proof.Statements

/-- A Reset of the state just reset changes nothing, so what every `resetBy` meets holds of `resetWith`. -/
theorem State.resetBy_resetWith (c : Config) : (State.resetWith c).resetBy c = State.resetWith c := rfl

/-- A ready engine awaits no key (R22, R23), so the wait latch asks nothing of it. -/
theorem State.waitsAtKeyInstr_of_ready {s : State} (hs : s.status = .ready) : s.WaitsAtKeyInstr := fun ha =>
  Status.noConfusion (hs.symm.trans ha)

/-- Settles O39: the invariant holds after every Reset, and Reset leaves the engine ready. -/
theorem resetMeetsTheInvariant : Obligations.ResetMeetsTheInvariant := by
  intro c
  constructor
  · have hinv := (State.resetWith c).inv_resetBy c
    rwa [State.resetBy_resetWith] at hinv
  · exact State.waitsAtKeyInstr_of_ready rfl

end Sys2Proof.Machine
end
